-- ==== Sys2Proof/Word.lean ====
section
/-! DEFINITION. The word and byte types of SVM16 (00_scope.md section 4, rule R20).
A register, a cell, an instruction and an address are all 16-bit words; arithmetic on them is modulo 2^16 (R85). -/

namespace Sys2Proof

/-- A 16-bit word: register, memory cell, instruction, address. -/
abbrev Word := BitVec 16

/-- An 8-bit byte: a console character, half of an image word. -/
abbrev Byte := BitVec 8

end Sys2Proof
end

