-- ==== Sys2Proof/Config.lean ====
section
/-! DEFINITION. What is fixed for one SVM16 machine: the parameters of 00_scope.md section 4, and the free values.
A constant declared opaque has NO value that a proof can see: a statement that holds, holds whatever it is. -/

namespace Sys2Proof.Config

/-- `KBSR_ADDR`, the keyboard status cell (20_memory.md R47; the spec's decision D2, log entry 1). -/
def kbsrAddr : Word := 0xFE00

/-- `KBDR_ADDR`, the keyboard data cell (20_memory.md R47; the spec's decision D2, log entry 1). -/
def kbdrAddr : Word := 0xFE02

/-- `KBSR_READY`, what a ready poll stores into KBSR (20_memory.md R44; the spec's decision D3, log entry 1). -/
def kbsrReady : Word := 0x8000

/-- `PC_START`, the entry point whatever the images' origins (10_state.md R34, 70_reset_and_hazards.md R176). -/
def pcStart : Word := 0x3000

/-- The bytes IN writes before it reads (44_trap.md R124): the open parameter `IN_PROMPT` (D11, log entry 6). -/
opaque inPrompt : List Byte

/-- The bytes HALT writes (44_trap.md R126): the open parameter `HALT_NOTICE` (D11, log entry 6). -/
opaque haltNotice : List Byte

/-- Whether a TRAP with a vector outside 0x20..0x25 raises the decode fault TRAPVEC (44_trap.md R127):
the open parameter `unknownTrapFaults` (D7, log entry 6). -/
opaque unknownTrapFaults : Bool

/-- FREE VALUE: the answer the host draws at the `n`-th call of `KeyAvailable()` since reset, where the host has not
settled it before (00_scope.md R7, D19 and U7; log entry 3). -/
opaque keyAvailable (n : Nat) : Bool

/-- FREE VALUE: the byte that stands ready at the `n`-th call of `KeyAvailable()` since reset, where the answer is true and the
host has delivered none before (00_scope.md R7, R8, U8; log entry 4). -/
opaque arrivingByte (n : Nat) : Byte

end Sys2Proof.Config
end

