-- ==== Sys2Proof/Syntax.lean ====
section
/-! DEFINITION. The instructions of SVM16: one constructor per row of spec/opcode_table.json.
The bits a rule ignores (30_encoding.md R67) are dropped by decoding, but for RTI, RES and TRAP: the fault record keeps
the whole word (10_state.md R35), so these three carry their ignored bits (log entry 11). -/

namespace Sys2Proof

/-- The eight general registers; every 3-bit field value names one (30_encoding.md R66). -/
inductive Reg where
  | r0 | r1 | r2 | r3 | r4 | r5 | r6 | r7
  deriving DecidableEq, Repr

/-- An SVM16 instruction (30_encoding.md R62 to R65). -/
inductive Instr where
  /-- `ADD DR, SR1, SR2` (R80). -/
  | addReg (dr sr1 sr2 : Reg)
  /-- `ADD DR, SR1, #imm5` (R81). -/
  | addImm (dr sr1 : Reg) (imm5 : BitVec 5)
  /-- `AND DR, SR1, SR2` (R82). -/
  | andReg (dr sr1 sr2 : Reg)
  /-- `AND DR, SR1, #imm5` (R83). -/
  | andImm (dr sr1 : Reg) (imm5 : BitVec 5)
  /-- `NOT DR, SR` (R84). -/
  | not (dr sr : Reg)
  /-- `BR{n}{z}{p} label` (R90). -/
  | br (n z p : Bool) (off9 : BitVec 9)
  /-- `JMP BaseR`; `RET` is `JMP R7` (R91). -/
  | jmp (base : Reg)
  /-- `JSR label` (R92). -/
  | jsr (off11 : BitVec 11)
  /-- `JSRR BaseR` (R93). -/
  | jsrr (base : Reg)
  /-- `LD DR, label` (R100). -/
  | ld (dr : Reg) (off9 : BitVec 9)
  /-- `LDI DR, label` (R101). -/
  | ldi (dr : Reg) (off9 : BitVec 9)
  /-- `LDR DR, BaseR, #offset6` (R102). -/
  | ldr (dr base : Reg) (off6 : BitVec 6)
  /-- `LEA DR, label` (R103). -/
  | lea (dr : Reg) (off9 : BitVec 9)
  /-- `ST SR, label` (R110). -/
  | st (sr : Reg) (off9 : BitVec 9)
  /-- `STI SR, label` (R111). -/
  | sti (sr : Reg) (off9 : BitVec 9)
  /-- `STR SR, BaseR, #offset6` (R112). -/
  | str (sr base : Reg) (off6 : BitVec 6)
  /-- `GETC`, TRAP x20 (R121). -/
  | getc
  /-- `OUT`, TRAP x21 (R122). -/
  | out
  /-- `PUTS`, TRAP x22 (R123). -/
  | puts
  /-- `IN`, TRAP x23 (R124). -/
  | inChar
  /-- `PUTSP`, TRAP x24 (R125). -/
  | putsp
  /-- `HALT`, TRAP x25 (R126). -/
  | halt
  /-- `TRAP trapvect8`, the general row, with bits 11:8 as they stand in the word (R120, R127). -/
  | trap (ignored : BitVec 4) (vect : BitVec 8)
  /-- `RTI`, unimplemented, with bits 11:0 as they stand in the word (R140). -/
  | rti (ignored : BitVec 12)
  /-- `RES`, reserved, with bits 11:0 as they stand in the word (R141). -/
  | res (ignored : BitVec 12)
  deriving DecidableEq, Repr

end Sys2Proof
end

