-- ==== Sys2Proof/Machine/State.lean ====
section
/-! DEFINITION. The state of SVM16 as plain data (10_state.md), why a step can stop, and the state after reset.
The core's own state is R0 to R7, PC, COND, the run state, the fault record and memory (R20 to R35); the console's two
streams belong to the host (R32) and stand in `Console`; `pending` says that the core is still inside a service routine. -/

namespace Sys2Proof.Machine

/-- The condition flag: exactly one of N, Z, P at all times (10_state.md R24). -/
inductive Cond where
  | n | z | p
  deriving DecidableEq, Repr

/-- The run state (10_state.md R29). HALTED and FAULTED are terminal. -/
inductive RunState where
  | running | halted | faulted
  deriving DecidableEq, Repr

/-- The cause of a decode fault (60_exceptions.md R151). -/
inductive FaultKind where
  | rti | res | trapVec
  deriving DecidableEq, Repr

/-- The fault record: the cause, the address the word was fetched from, and the word (10_state.md R35). -/
structure FaultRecord where
  kind : FaultKind
  addr : Word
  word : Word
  deriving DecidableEq, Repr

/-- The routine whose `ReadByte()` waits for a byte: only GETC and IN can wait (60_exceptions.md R155). -/
inductive WaitPoint where
  | getc | inChar
  deriving DecidableEq, Repr

/-- The routine that walks over a string: PUTS or PUTSP (44_trap.md R123, R125). -/
inductive StringRoutine where
  | puts | putsp
  deriving DecidableEq, Repr

/-- Why the core is still inside a service routine when a step of the model ends. -/
inductive Unfinished where
  /-- It waits in the routine's `ReadByte()` (00_scope.md R8; log entry 5). -/
  | reading (p : WaitPoint)
  /-- The routine's walk has passed over all 65,536 cells and met no zero word, and starts the next pass at R0, where the
  last one ended (44_trap.md R123; log entry 9). -/
  | walking (r : StringRoutine)
  deriving DecidableEq, Repr

/-- An event of the console output: a byte written, or a flush (00_scope.md R9, D15). -/
inductive OutEvent where
  | byte (b : Byte)
  | flush
  deriving DecidableEq, Repr

/-- The console host's side (10_state.md R32): not the core's state, but what its ports see. -/
structure Console where
  /-- Bytes the host has delivered and the core has not taken, oldest first (00_scope.md R8). -/
  input : List Byte
  /-- Answers of `KeyAvailable()` the host has settled, one per call to come (00_scope.md R7; log entry 3). -/
  avail : List Bool
  /-- How many times `KeyAvailable()` has been called: the index of the free value (log entry 3). -/
  polls : Nat
  /-- The output so far, oldest first (00_scope.md R9; log entry 13). -/
  output : List OutEvent
  deriving DecidableEq, Repr

/-- The general registers (10_state.md R20). -/
structure Regs where
  r0 : Word
  r1 : Word
  r2 : Word
  r3 : Word
  r4 : Word
  r5 : Word
  r6 : Word
  r7 : Word
  deriving DecidableEq, Repr

/-- Memory as (address, byte) pairs in one canonical form (Ops.lean's `Memory.wf`): the word cell `a` of
20_memory.md R40 is the bytes `2a` (bits 7:0) and `2a+1` (bits 15:8); an unlisted byte reads as 0, the reset contents
of every cell (10_state.md R34). No instruction can see the order of the two bytes (20_memory.md R50; log entry 8). -/
abbrev Memory := List Host.Cell

/-- The state of the machine. -/
structure State where
  /-- R0 to R7 (R20). -/
  regs : Regs
  /-- The program counter, a word address (R23). -/
  pc : Word
  /-- The condition flag COND (R24). -/
  cond : Cond
  /-- RUNNING, HALTED or FAULTED (R29). -/
  run : RunState
  /-- The fault record, held while FAULTED (R35). -/
  fault : Option FaultRecord
  /-- The 65,536 cells, KBSR and KBDR among them (R30, R31). -/
  mem : Memory
  /-- The service routine the core is still inside, if any (00_scope.md R8, 44_trap.md R123; log entries 5 and 9). -/
  pending : Option Unfinished
  /-- The console (R32). -/
  con : Console
  deriving DecidableEq, Repr

/-- Why a step can stop the model with a fault: nothing does, so there is no constructor. The decode fault is the state
FAULTED (60_exceptions.md R152), and a string without an end is a run without an end (44_trap.md R123; log entry 9). -/
inductive Fault where
  deriving DecidableEq, Repr

/-- Why a step can have no meaning. -/
inductive Refusal where
  /-- An instruction whose meaning is not written yet; raised by `exec`'s refused arms alone, of which there are none
  left; safe. -/
  | notModelled (mnemonic : String)
  deriving DecidableEq, Repr

/-- The machine right after reset with every cell 0x0000 (10_state.md R34): what Loader.lean's `resetWith` gives for an
image without a word. No byte has been delivered and no output made (log entries 2, 3, 5 and 13). -/
def State.reset : State :=
  { regs := ⟨0, 0, 0, 0, 0, 0, 0, 0⟩
    pc := Config.pcStart
    cond := .z
    run := .running
    fault := none
    mem := []
    pending := none
    con := ⟨[], [], 0, []⟩ }

end Sys2Proof.Machine
end

