-- ==== Sys2Proof/Machine/Flags.lean ====
section
/-! DEFINITION. The condition flag: how a value sets it, its bits, and the test BR makes (10_state.md R24 to R28). -/

namespace Sys2Proof.Machine

/-- The flag `setcc(v)` gives: Z for 0, N if bit 15 is set, else P (10_state.md R25). -/
def flagOf (v : Word) : Cond :=
  if v = 0 then .z else if v.getLsbD 15 then .n else .p

/-- COND as the 3-bit one-hot value (10_state.md R28). -/
def Cond.bits : Cond → BitVec 3
  | .p => 0b001
  | .z => 0b010
  | .n => 0b100

/-- The BR mask of word bits 11, 10, 9 as a 3-bit value (30_encoding.md R63). -/
def maskBits (n z p : Bool) : BitVec 3 :=
  BitVec.ofBool n ++ BitVec.ofBool z ++ BitVec.ofBool p

/-- BR's test: mask & COND ≠ 0 (41_control.md R90). -/
def branchTaken (n z p : Bool) (c : Cond) : Bool :=
  maskBits n z p &&& c.bits != 0

end Sys2Proof.Machine
end

