-- ==== Sys2Proof/Machine/Operands.lean ====
section
/-! DEFINITION. Operand assembly (30_encoding.md R65, 42_load.md R104): extensions, the effective-address sums
(modulo 2^16, 20_memory.md R53), and the bytes of a word. -/

namespace Sys2Proof.Machine

/-- Sign extension of a k-bit field to 16 bits (00_scope.md R11). -/
def sext {k : Nat} (v : BitVec k) : Word := v.signExtend 16

/-- Zero extension of a byte to 16 bits (00_scope.md R12). -/
def zext8 (b : Byte) : Word := b.setWidth 16

/-- PC-relative address: the incremented pc plus a sign-extended offset (42_load.md R104, 41_control.md R94). -/
def pcRelative {k : Nat} (pc : Word) (off : BitVec k) : Word := pc + sext off

/-- Base plus offset address (42_load.md R104). -/
def basePlus (base : Word) (off6 : BitVec 6) : Word := base + sext off6

/-- Bits 7:0 of a word: what the output routines write (20_memory.md R50). -/
def lowByte (w : Word) : Byte := w.extractLsb' 0 8

/-- Bits 15:8 of a word: PUTSP's second character (44_trap.md R125). -/
def highByte (w : Word) : Byte := w.extractLsb' 8 8

/-- The word of two bytes, the first one high: the order of an image's words (70_reset_and_hazards.md R171). -/
def wordOfBytes (high low : Byte) : Word := high ++ low

/-- The characters PUTS writes for a word: its low byte (44_trap.md R123). -/
def putsChars (w : Word) : List Byte := [lowByte w]

/-- The characters PUTSP writes for a word: its low byte, then its high byte if non-zero (44_trap.md R125). -/
def putspChars (w : Word) : List Byte :=
  if highByte w = 0 then [lowByte w] else [lowByte w, highByte w]

end Sys2Proof.Machine
end

