-- ==== Sys2Proof/Machine/Ops.lean ====
section
/-! DEFINITION. The named operations over registers and memory, and taking the decode fault.
Every read and write of a register or a cell goes through these. -/

namespace Sys2Proof.Machine

/-- The value of a register (10_state.md R20). -/
def Regs.get (f : Regs) : Reg → Word
  | .r0 => f.r0 | .r1 => f.r1 | .r2 => f.r2 | .r3 => f.r3
  | .r4 => f.r4 | .r5 => f.r5 | .r6 => f.r6 | .r7 => f.r7

/-- The register file with one register written (10_state.md R20). -/
def Regs.set (f : Regs) (r : Reg) (v : Word) : Regs :=
  match r with
  | .r0 => { f with r0 := v }
  | .r1 => { f with r1 := v }
  | .r2 => { f with r2 := v }
  | .r3 => { f with r3 := v }
  | .r4 => { f with r4 := v }
  | .r5 => { f with r5 := v }
  | .r6 => { f with r6 := v }
  | .r7 => { f with r7 := v }

/-- `x[r]`. -/
def State.reg (s : State) (r : Reg) : Word := s.regs.get r

/-- `x[r] <- v`, with no flag update. -/
def State.setReg (s : State) (r : Reg) (v : Word) : State := { s with regs := s.regs.set r v }

/-- `pc <- target`. -/
def State.setPc (s : State) (target : Word) : State := { s with pc := target }

/-- `COND <- c`. -/
def State.setCond (s : State) (c : Cond) : State := { s with cond := c }

/-- Write a result register and then the flag from the value written (10_state.md R25, R26). -/
def State.writeResult (s : State) (dr : Reg) (v : Word) : State :=
  (s.setReg dr v).setCond (flagOf v)

/-! ## Memory -/

/-- The canonical form: byte addresses strictly rising and inside the address space, no entry equal to what an
unlisted byte reads as. -/
abbrev Memory.wf (m : Memory) : Prop :=
  m.Pairwise (fun x y => x.1 < y.1) ∧ ∀ c ∈ m, c.1 < 131072 ∧ c.2 ≠ 0

/-- The byte at a byte address; an unlisted one reads as 0 (10_state.md R34). -/
def Memory.byteAt : Memory → Nat → Byte
  | [], _ => 0
  | (k, b) :: m, a => if k = a then b else Memory.byteAt m a

/-- Put an entry before the first one with a greater address. -/
def Memory.insertByte : Memory → Nat → Byte → Memory
  | [], a, v => [(a, v)]
  | (k, b) :: m, a, v => if a < k then (a, v) :: (k, b) :: m else (k, b) :: Memory.insertByte m a v

/-- Memory with one byte written; writing 0 removes the entry. -/
def Memory.setByte (m : Memory) (a : Nat) (v : Byte) : Memory :=
  if v = 0 then m.filter (fun c => c.1 != a) else Memory.insertByte (m.filter (fun c => c.1 != a)) a v

/-- The contents of cell `a` (20_memory.md R40). -/
def Memory.cell (m : Memory) (a : Word) : Word :=
  wordOfBytes (Memory.byteAt m (2 * a.toNat + 1)) (Memory.byteAt m (2 * a.toNat))

/-- Memory with cell `a` written. -/
def Memory.setCell (m : Memory) (a v : Word) : Memory :=
  Memory.setByte (Memory.setByte m (2 * a.toNat) (lowByte v)) (2 * a.toNat + 1) (highByte v)

/-- `Cell[a]`, read with no device side effect. -/
def State.cell (s : State) (a : Word) : Word := Memory.cell s.mem a

/-- `Cell[a] <- v`, which is also `MemWrite(a, 1, v)`: a plain store at every address (20_memory.md R41). -/
def State.setCell (s : State) (a v : Word) : State := { s with mem := Memory.setCell s.mem a v }

/-! ## The keyboard (20_memory.md R43) -/

/-- The answer drawn at the next call of `KeyAvailable()`: the one the host has settled, else the free value
(00_scope.md R7; log entry 3). -/
def drawKeyAvailable (s : State) : Bool :=
  match s.con.avail with
  | b :: _ => b
  | [] => Config.keyAvailable s.con.polls

/-- The state after one call of `KeyAvailable()`: no input is consumed (00_scope.md R7). -/
def afterKeyAvailable (s : State) : State :=
  { s with con := { s.con with avail := s.con.avail.tail, polls := s.con.polls + 1 } }

/-- The byte `ReadByte()` returns at once after `KeyAvailable()` has answered true (00_scope.md R7): the oldest delivered
byte, else the free value for the byte that has just arrived (log entry 4). -/
def nextByte (s : State) : Byte :=
  match s.con.input with
  | b :: _ => b
  | [] => Config.arrivingByte s.con.polls

/-- The poll a read of KBSR makes before it returns (20_memory.md R43): ready, KBSR takes `KBSR_READY` and KBDR the next
input byte; not ready, KBSR is cleared and KBDR kept. -/
def pollKeyboard (s : State) : State :=
  let t := afterKeyAvailable s
  if drawKeyAvailable s then
    let t := t.setCell Config.kbsrAddr Config.kbsrReady
    let t := { t with con := { t.con with input := s.con.input.tail } }
    t.setCell Config.kbdrAddr (zext8 (nextByte s))
  else t.setCell Config.kbsrAddr 0

/-- `MemRead(a, 1)`: the value, and the state after; only a read of KBSR changes it (20_memory.md R42, R43). -/
def memRead (a : Word) (s : State) : Word × State :=
  if a = Config.kbsrAddr then
    let t := pollKeyboard s
    (t.cell Config.kbsrAddr, t)
  else (s.cell a, s)

/-! ## Entering a call, a trap and the fault -/

/-- `x[7] <- pc` with no flag update: the return address of JSR, JSRR and every TRAP (41_control.md R92, R93,
44_trap.md R120, 60_exceptions.md R156). There is no return operation beside it: a routine returns by leaving pc as it
is (R157), and RTI faults (45_unimplemented.md R140). -/
def linkReturn (s : State) : State := s.setReg .r7 s.pc

/-- `raise DecodeFault({kind, pc - 1, word})`: the record and FAULTED, nothing else (60_exceptions.md R152). The pc has
been incremented, so the word was fetched from `pc - 1` (45_unimplemented.md R140). -/
def raiseDecodeFault (kind : FaultKind) (word : Word) (s : State) : State :=
  { s with fault := some ⟨kind, s.pc - 1, word⟩, run := .faulted }

end Sys2Proof.Machine
end

