-- ==== Sys2Proof/Machine/Control.lean ====
section
/-! DEFINITION. BR, JMP, JSR, JSRR (41_control.md). None of them writes COND. -/

namespace Sys2Proof.Machine

/-- BR (R90). -/
def execBr (n z p : Bool) (off9 : BitVec 9) (s : State) : Host.Outcome State Fault Refusal :=
  .next (if branchTaken n z p s.cond then s.setPc (pcRelative s.pc off9) else s)

/-- JMP, and RET when the base is R7 (R91). -/
def execJmp (base : Reg) (s : State) : Host.Outcome State Fault Refusal :=
  .next (s.setPc (s.reg base))

/-- JSR (R92). -/
def execJsr (off11 : BitVec 11) (s : State) : Host.Outcome State Fault Refusal :=
  .next ((linkReturn s).setPc (pcRelative s.pc off11))

/-- JSRR: R7 is written first, then the base is read (R93; the spec's decision D8). -/
def execJsrr (base : Reg) (s : State) : Host.Outcome State Fault Refusal :=
  .next ((linkReturn s).setPc ((linkReturn s).reg base))

end Sys2Proof.Machine
end

