-- ==== Sys2Proof/Machine/Load.lean ====
section
/-! DEFINITION. LD, LDI, LDR, LEA (42_load.md). Every read is a `memRead`, so a read of KBSR polls (20_memory.md R49). -/

namespace Sys2Proof.Machine

/-- Load from an address into a register and set the flag: the common part of LD, LDI and LDR. -/
def loadInto (dr : Reg) (ea : Word) (s : State) : State :=
  (memRead ea s).2.writeResult dr (memRead ea s).1

/-- LD (R100). -/
def execLd (dr : Reg) (off9 : BitVec 9) (s : State) : Host.Outcome State Fault Refusal :=
  .next (loadInto dr (pcRelative s.pc off9) s)

/-- LDI: the pointer read comes first (R101, 20_memory.md R56). -/
def execLdi (dr : Reg) (off9 : BitVec 9) (s : State) : Host.Outcome State Fault Refusal :=
  let p := memRead (pcRelative s.pc off9) s
  .next (loadInto dr p.1 p.2)

/-- LDR (R102). -/
def execLdr (dr base : Reg) (off6 : BitVec 6) (s : State) : Host.Outcome State Fault Refusal :=
  .next (loadInto dr (basePlus (s.reg base) off6) s)

/-- LEA: no memory access; it sets the flag (R103, 91_not_in_source.md N12). -/
def execLea (dr : Reg) (off9 : BitVec 9) (s : State) : Host.Outcome State Fault Refusal :=
  .next (s.writeResult dr (pcRelative s.pc off9))

end Sys2Proof.Machine
end

