-- ==== Sys2Proof/Machine/Store.lean ====
section
/-! DEFINITION. ST, STI, STR (43_store.md). A store writes no register and no flag. -/

namespace Sys2Proof.Machine

/-- ST (R110). -/
def execSt (sr : Reg) (off9 : BitVec 9) (s : State) : Host.Outcome State Fault Refusal :=
  .next (s.setCell (pcRelative s.pc off9) (s.reg sr))

/-- STI: the pointer read comes first, and polls if the pointer cell is KBSR (R111). -/
def execSti (sr : Reg) (off9 : BitVec 9) (s : State) : Host.Outcome State Fault Refusal :=
  let p := memRead (pcRelative s.pc off9) s
  .next (p.2.setCell p.1 (s.reg sr))

/-- STR (R112). -/
def execStr (sr base : Reg) (off6 : BitVec 6) (s : State) : Host.Outcome State Fault Refusal :=
  .next (s.setCell (basePlus (s.reg base) off6) (s.reg sr))

end Sys2Proof.Machine
end

