-- ==== Sys2Proof/Decode.lean ====
section
/-! DEFINITION. Decoding and encoding (30_encoding.md R60 to R69, spec/opcode_table.json).
Decoding is total on 16-bit words: every word selects exactly one row (R69), so nothing is rejected here; the two
opcodes that fault (RTI, RES) are instructions whose meaning raises the fault. -/

namespace Sys2Proof

/-- The register a 3-bit field names (30_encoding.md R66). -/
def Reg.ofBits (b : BitVec 3) : Reg :=
  match b.toNat with
  | 0 => .r0 | 1 => .r1 | 2 => .r2 | 3 => .r3 | 4 => .r4 | 5 => .r5 | 6 => .r6 | _ => .r7

/-- The 3-bit field that names a register (30_encoding.md R66). -/
def Reg.toBits : Reg → BitVec 3
  | .r0 => 0 | .r1 => 1 | .r2 => 2 | .r3 => 3 | .r4 => 4 | .r5 => 5 | .r6 => 6 | .r7 => 7

/-- The register named by the three bits of `w` from bit `lo` up (30_encoding.md R63). -/
def regField (w : Word) (lo : Nat) : Reg := Reg.ofBits (w.extractLsb' lo 3)

/-- Bit `j` of `w` (30_encoding.md R63): a mask bit of BR, the immediate flag, the JSR flag. -/
def bitField (w : Word) (j : Nat) : Bool := w.getLsbD j

/-- A TRAP word: the six alias rows first, then the general row (30_encoding.md R69, 44_trap.md R120). -/
def decodeTrap (w : Word) : Instr :=
  match (w.extractLsb' 0 8).toNat with
  | 0x20 => .getc
  | 0x21 => .out
  | 0x22 => .puts
  | 0x23 => .inChar
  | 0x24 => .putsp
  | 0x25 => .halt
  | _ => .trap (w.extractLsb' 8 4) (w.extractLsb' 0 8)

/-- The instruction a word stands for, by its opcode `w[15:12]` (30_encoding.md R62). -/
def decode (w : Word) : Instr :=
  match (w.extractLsb' 12 4).toNat with
  | 0x0 => .br (bitField w 11) (bitField w 10) (bitField w 9) (w.extractLsb' 0 9)
  | 0x1 =>
    if bitField w 5 then .addImm (regField w 9) (regField w 6) (w.extractLsb' 0 5)
    else .addReg (regField w 9) (regField w 6) (regField w 0)
  | 0x2 => .ld (regField w 9) (w.extractLsb' 0 9)
  | 0x3 => .st (regField w 9) (w.extractLsb' 0 9)
  | 0x4 => if bitField w 11 then .jsr (w.extractLsb' 0 11) else .jsrr (regField w 6)
  | 0x5 =>
    if bitField w 5 then .andImm (regField w 9) (regField w 6) (w.extractLsb' 0 5)
    else .andReg (regField w 9) (regField w 6) (regField w 0)
  | 0x6 => .ldr (regField w 9) (regField w 6) (w.extractLsb' 0 6)
  | 0x7 => .str (regField w 9) (regField w 6) (w.extractLsb' 0 6)
  | 0x8 => .rti (w.extractLsb' 0 12)
  | 0x9 => .not (regField w 9) (regField w 6)
  | 0xA => .ldi (regField w 9) (w.extractLsb' 0 9)
  | 0xB => .sti (regField w 9) (w.extractLsb' 0 9)
  | 0xC => .jmp (regField w 6)
  | 0xD => .res (w.extractLsb' 0 12)
  | 0xE => .lea (regField w 9) (w.extractLsb' 0 9)
  | _ => decodeTrap w

/-- The instruction read from an instruction of `nbits` bits, numbered as spec/opcode_table.json numbers them.
Every instruction is one 16-bit word (30_encoding.md R60), so the word is those bits, with 0 above them;
more than 16 bits is no instruction. -/
def decodeTableWord (nbits w : Nat) : Option Instr :=
  if nbits ≤ 16 then some (decode (BitVec.ofNat 16 (w % 2 ^ nbits))) else none

/-- The 4-bit opcode of an instruction (30_encoding.md R62). -/
def Instr.opcode : Instr → BitVec 4
  | .br _ _ _ _ => 0x0
  | .addReg _ _ _ | .addImm _ _ _ => 0x1
  | .ld _ _ => 0x2
  | .st _ _ => 0x3
  | .jsr _ | .jsrr _ => 0x4
  | .andReg _ _ _ | .andImm _ _ _ => 0x5
  | .ldr _ _ _ => 0x6
  | .str _ _ _ => 0x7
  | .rti _ => 0x8
  | .not _ _ => 0x9
  | .ldi _ _ => 0xA
  | .sti _ _ => 0xB
  | .jmp _ => 0xC
  | .res _ => 0xD
  | .lea _ _ => 0xE
  | .getc | .out | .puts | .inChar | .putsp | .halt | .trap _ _ => 0xF

/-- Bits 11:0 of the canonical word of an instruction (30_encoding.md R64); an ignored bit that the instruction does
not carry is written 0, but for NOT, whose bits 5:0 assemblers write as ones (R67). -/
def Instr.operandBits : Instr → BitVec 12
  | .br n z p off => BitVec.ofBool n ++ BitVec.ofBool z ++ BitVec.ofBool p ++ off
  | .addReg d a b | .andReg d a b => d.toBits ++ a.toBits ++ 0#3 ++ b.toBits
  | .addImm d a imm | .andImm d a imm => d.toBits ++ a.toBits ++ 1#1 ++ imm
  | .not d a => d.toBits ++ a.toBits ++ 0x3F#6
  | .jmp b => 0#3 ++ b.toBits ++ 0#6
  | .jsr off => 1#1 ++ off
  | .jsrr b => 0#3 ++ b.toBits ++ 0#6
  | .ld r off | .ldi r off | .lea r off | .st r off | .sti r off => r.toBits ++ off
  | .ldr r b off | .str r b off => r.toBits ++ b.toBits ++ off
  | .getc => 0x020
  | .out => 0x021
  | .puts => 0x022
  | .inChar => 0x023
  | .putsp => 0x024
  | .halt => 0x025
  | .trap ign v => ign ++ v
  | .rti low | .res low => low

/-- The word of an instruction (30_encoding.md R64). -/
def encode (i : Instr) : Word := i.opcode ++ i.operandBits

end Sys2Proof
end

