-- ==== Sys2Proof/Machine/Console.lean ====
section
/-! DEFINITION. The console ports (00_scope.md R6 to R9), waiting in `ReadByte()`, the string walk of PUTS and PUTSP, how an
unfinished routine goes on, and what the host can do between two steps. -/

namespace Sys2Proof.Machine

/-! ## Output (00_scope.md R9) -/

/-- Append events to the output. -/
def State.emit (s : State) (es : List OutEvent) : State :=
  { s with con := { s.con with output := s.con.output ++ es } }

/-- `WriteByte(b)` for each byte, in order. -/
def writeBytes (bs : List Byte) (s : State) : State := s.emit (bs.map .byte)

/-- `Flush()`: an event, no byte (00_scope.md R9, D15). -/
def flush (s : State) : State := s.emit [.flush]

/-- The bytes of an output: the log of 00_scope.md R9, which a flush does not change. -/
def outputBytes : List OutEvent → List Byte
  | [] => []
  | .byte b :: es => b :: outputBytes es
  | .flush :: es => outputBytes es

/-! ## Input (00_scope.md R8) -/

/-- What GETC and IN do once their `ReadByte()` has returned `b` (44_trap.md R121, R124). -/
def finishRead (p : WaitPoint) (b : Byte) (s : State) : State :=
  match p with
  | .getc => s.writeResult .r0 (zext8 b)
  | .inChar => (flush (writeBytes [b] s)).writeResult .r0 (zext8 b)

/-- `ReadByte()` and what follows it: with a byte delivered the routine takes it and finishes; with none the core
waits, with all it did before kept (00_scope.md R8, 30_encoding.md R72; log entry 5). -/
def readByteThen (p : WaitPoint) (s : State) : State :=
  match s.con.input with
  | b :: rest => finishRead p b { s with pending := none, con := { s.con with input := rest } }
  | [] => { s with pending := some (.reading p) }

/-! ## Strings (44_trap.md R123, R125) -/

/-- The characters a routine writes for a word of its string. -/
def stringChars : StringRoutine → Word → List Byte
  | .puts => putsChars
  | .putsp => putspChars

/-- How far `stringWalk` came. -/
inductive Walk where
  /-- It met a zero word, read in state `s`. -/
  | ended (s : State)
  /-- It made all its reads and met none. -/
  | goesOn (s : State)
  deriving DecidableEq, Repr

/-- At most `reads` reads of the walk over a string: read a word, stop at the first zero word, else write its characters
and go to the next address modulo 2^16. -/
def stringWalk (chars : Word → List Byte) : Nat → Word → State → Walk
  | 0, _, s => .goesOn s
  | reads + 1, a, s =>
    let r := memRead a s
    if r.1 = 0 then .ended r.2
    else stringWalk chars reads (a + 1) (writeBytes (chars r.1) r.2)

/-- The reads of one pass over all of memory, after which the walk is back at its first address. -/
def passReads : Nat := 65536

/-- Write the string at `x[0]` and flush (44_trap.md R123, R125, R129). A string that ends does so within one pass, or is
given its end by a poll of a later one; after each pass without a zero word the core is still inside the routine, for
ever if none comes (log entry 9). -/
def putString (r : StringRoutine) (s : State) : State :=
  match stringWalk (stringChars r) passReads (s.reg .r0) s with
  | .ended t => flush { t with pending := none }
  | .goesOn t => { t with pending := some (.walking r) }

/-! ## The service routines, after R7 is written (44_trap.md R121 to R126) -/

/-- GETC (R121). -/
def serviceGetc (s : State) : State := readByteThen .getc s

/-- OUT (R122). -/
def serviceOut (s : State) : State := flush (writeBytes [lowByte (s.reg .r0)] s)

/-- IN (R124). -/
def serviceIn (s : State) : State := readByteThen .inChar (writeBytes Config.inPrompt s)

/-- HALT (R126). -/
def serviceHalt (s : State) : State :=
  { flush (writeBytes Config.haltNotice s) with run := .halted }

/-- A vector outside 0x20..0x25: nothing, or the fault TRAPVEC, by the parameter (R127). -/
def unknownTrap (word : Word) (s : State) : State :=
  if Config.unknownTrapFaults then raiseDecodeFault .trapVec word s else s

/-! ## Going on -/

/-- The next step of a core that is still inside a routine: `ReadByte()` tried again, or one pass more over the string
(00_scope.md R8, 44_trap.md R123; log entries 5 and 9). -/
def resume (u : Unfinished) (s : State) : State :=
  match u with
  | .reading p => readByteThen p s
  | .walking r => putString r s

/-! ## The host between two steps (log entry 10) -/

/-- The host delivers a byte (00_scope.md R8). -/
def deliver (b : Byte) (s : State) : State :=
  { s with con := { s.con with input := s.con.input ++ [b] } }

/-- The host settles one more answer of `KeyAvailable()` (00_scope.md R7). -/
def settleAnswer (a : Bool) (s : State) : State :=
  { s with con := { s.con with avail := s.con.avail ++ [a] } }

end Sys2Proof.Machine
end

