-- ==== Sys2Proof/Machine/Trap.lean ====
section
/-! DEFINITION. TRAP and the six service routines (44_trap.md), each run inside the TRAP's own step after R7 is written
(R120, R128). -/

namespace Sys2Proof.Machine

/-- GETC (R121). -/
def execGetc (s : State) : Host.Outcome State Fault Refusal := .next (serviceGetc (linkReturn s))

/-- OUT (R122). -/
def execOut (s : State) : Host.Outcome State Fault Refusal := .next (serviceOut (linkReturn s))

/-- PUTS (R123). -/
def execPuts (s : State) : Host.Outcome State Fault Refusal :=
  .next (putString .puts (linkReturn s))

/-- IN (R124). -/
def execIn (s : State) : Host.Outcome State Fault Refusal := .next (serviceIn (linkReturn s))

/-- PUTSP (R125). -/
def execPutsp (s : State) : Host.Outcome State Fault Refusal :=
  .next (putString .putsp (linkReturn s))

/-- HALT (R126). -/
def execHalt (s : State) : Host.Outcome State Fault Refusal := .next (serviceHalt (linkReturn s))

/-- TRAP, the general row: R7, then the routine the vector selects (R120). Decoding gives a service vector to its own
row, so what runs here is an unknown vector (R127; log entry 15). -/
def execTrap (ignored : BitVec 4) (vect : BitVec 8) (s : State) : Host.Outcome State Fault Refusal :=
  match vect.toNat with
  | 0x20 => .next (serviceGetc (linkReturn s))
  | 0x21 => .next (serviceOut (linkReturn s))
  | 0x22 => .next (putString .puts (linkReturn s))
  | 0x23 => .next (serviceIn (linkReturn s))
  | 0x24 => .next (putString .putsp (linkReturn s))
  | 0x25 => .next (serviceHalt (linkReturn s))
  | _ => .next (unknownTrap (encode (.trap ignored vect)) (linkReturn s))

end Sys2Proof.Machine
end

