-- ==== Sys2Proof/Machine/Unimplemented.lean ====
section
/-! DEFINITION. RTI and RES, which raise the decode fault (45_unimplemented.md). -/

namespace Sys2Proof.Machine

/-- RTI (R140). -/
def execRti (ignored : BitVec 12) (s : State) : Host.Outcome State Fault Refusal :=
  .next (raiseDecodeFault .rti (encode (.rti ignored)) s)

/-- RES (R141). -/
def execRes (ignored : BitVec 12) (s : State) : Host.Outcome State Fault Refusal :=
  .next (raiseDecodeFault .res (encode (.res ignored)) s)

end Sys2Proof.Machine
end

