-- ==== Sys2Proof/Machine/Fetch.lean ====
section
/-! DEFINITION. How a step begins (30_encoding.md R72): an ended run does nothing, an unfinished routine goes on, and
otherwise one word is fetched and decoded and the pc moves past it. Also the placing of a word where the next fetch
reads. -/

namespace Sys2Proof.Machine

/-- How a step begins: it is over, with the state it leaves, or it runs an instruction in the state after the fetch. -/
inductive Begun where
  | over (s : State)
  | run (i : Instr) (s : State)
  deriving DecidableEq, Repr

/-- Fetch: `MemRead(pc, 1)`, which polls at KBSR, then `pc <- pc + 1` modulo 2^16 (R72, 10_state.md R23). -/
def fetch (s : State) : Word × State :=
  let r := memRead s.pc s
  (r.1, r.2.setPc (s.pc + 1))

/-- The beginning of a step. HALTED and FAULTED are terminal, so nothing changes (10_state.md R29; log entry 7). A core
that is still inside a service routine goes on with it (log entries 5 and 9). -/
def beginStep (s : State) : Begun :=
  match s.run with
  | .halted => .over s
  | .faulted => .over s
  | .running =>
    match s.pending with
    | some u => .over (resume u s)
    | none => .run (decode (fetch s).1) (fetch s).2

/-- `s` made ready to fetch the instruction of `nbits` bits `w` at its pc (log entry 16): the word in the cell at pc, the
core running and inside no routine. -/
def placeAtPc (s : State) (nbits w : Nat) : State :=
  { s.setCell s.pc (BitVec.ofNat 16 (w % 2 ^ nbits)) with run := .running, fault := none, pending := none }

end Sys2Proof.Machine
end

