-- ==== Sys2Proof/Machine/Step.lean ====
section
/-! DEFINITION. One step of the machine: one instruction (30_encoding.md R72). -/

namespace Sys2Proof.Machine

/-- One step: begin it, then run the instruction fetched, if one was. -/
def step (s : State) : Host.Outcome State Fault Refusal :=
  match beginStep s with
  | .over t => .next t
  | .run i t => exec i t

/-- `s` with the instruction of `nbits` bits `w` where `step` fetches next. -/
def State.withFetchWord (s : State) (nbits w : Nat) : State := placeAtPc s nbits w

end Sys2Proof.Machine
end

