-- ==== Sys2Proof/Machine/Loader.lean ====
section
/-! DEFINITION. Reset with program images, the image loader and the run status (70_reset_and_hazards.md R170 to R176).
This is how a program comes to run: the host loads it before the first fetch (log entry 12). -/

namespace Sys2Proof.Machine

/-- An image as the host offers it: its byte stream, or `none` where it cannot be opened (R174). -/
abbrev Image := Option (List Byte)

/-- Write big-endian words from address `a` up, dropping an odd trailing byte and every word past 0xFFFF (R171, R172). -/
def loadWords : List Byte → Nat → Memory → Memory
  | high :: low :: rest, a, m =>
    if a < 65536 then loadWords rest (a + 1) (Memory.setCell m (BitVec.ofNat 16 a) (wordOfBytes high low)) else m
  | _, _, m => m

/-- `LoadImage`: the first two bytes are the origin; `none` is a load error (R171, R172, R174). -/
def loadImage (m : Memory) : Image → Option Memory
  | some (high :: low :: rest) => some (loadWords rest (wordOfBytes high low).toNat m)
  | _ => none

/-- Load images one after another; the first load error ends it (R173, R174). -/
def loadImages : List Image → Memory → Option Memory
  | [], m => some m
  | img :: rest, m =>
    match loadImage m img with
    | some m' => loadImages rest m'
    | none => none

/-- How a reset ends (R170, R174). -/
inductive ResetOutcome where
  | loadError
  | started (s : State)
  deriving DecidableEq, Repr

/-- `Reset(images)`: at least one image, all of them loadable (R170, R174, R175). -/
def resetWith (images : List Image) : ResetOutcome :=
  match images with
  | [] => .loadError
  | _ :: _ =>
    match loadImages images State.reset.mem with
    | some m => .started { State.reset with mem := m }
    | none => .loadError

/-- What the run-status port shows the host (00_scope.md R6). -/
inductive RunStatus where
  | loadError
  | running
  | halted
  | faulted (r : Option FaultRecord)
  deriving DecidableEq, Repr

/-- The run status of a state: its run state, with the fault record (00_scope.md R6, 10_state.md R35). -/
def State.runStatus (s : State) : RunStatus :=
  match s.run with
  | .running => .running
  | .halted => .halted
  | .faulted => .faulted s.fault

/-- The run status right after reset: LoadError stands in place of RUNNING (70_reset_and_hazards.md R174). -/
def ResetOutcome.runStatus : ResetOutcome → RunStatus
  | .loadError => .loadError
  | .started s => s.runStatus

end Sys2Proof.Machine
end

