-- ==== Sys2Proof/Safety.lean ====
section
/-! DEFINITION. What counts as an ended, a stuck and a consistent state, and the vocabulary of the frames: what two
states have in common. -/

namespace Sys2Proof.Machine

/-- The run has ended: HALTED or FAULTED (60_exceptions.md R161). -/
def Ended (s : State) : Prop := s.run ≠ .running

/-- The core waits in `ReadByte()` and no byte has been delivered (00_scope.md R8, 60_exceptions.md R153). -/
def Stuck (s : State) : Prop := s.run = .running ∧ (∃ p, s.pending = some (.reading p)) ∧ s.con.input = []

/-- Every register outside `rs` is the same. -/
def SameRegsBut (rs : List Reg) (s t : State) : Prop := ∀ r, r ∉ rs → t.reg r = s.reg r

/-- Every byte of memory is the same. -/
def SameMemory (s t : State) : Prop := ∀ k, Memory.byteAt t.mem k = Memory.byteAt s.mem k

/-- Every byte of memory outside the two bytes of each cell in `cs` is the same. -/
def SameMemoryBut (cs : List Word) (s t : State) : Prop :=
  ∀ k, (∀ c ∈ cs, k ≠ 2 * c.toNat ∧ k ≠ 2 * c.toNat + 1) → Memory.byteAt t.mem k = Memory.byteAt s.mem k

/-- The run state, the fault record and the unfinished routine, if any, are the same. -/
def SameStatus (s t : State) : Prop := t.run = s.run ∧ t.fault = s.fault ∧ t.pending = s.pending

/-- The console is the same: no input taken, no output made, no poll. -/
def SameConsole (s t : State) : Prop := t.con = s.con

/-- The flag that goes with a value (10_state.md R25): Z for 0, N if bit 15 is set, otherwise P. -/
def FlagFor (v : Word) (c : Cond) : Prop :=
  (v = 0 → c = .z) ∧ (v.getLsbD 15 = true → c = .n) ∧ (v ≠ 0 → v.getLsbD 15 = false → c = .p)

/-- Nothing but the result register `dr` and COND differs: the frame of the operate instructions and LEA. -/
def OnlyResult (dr : Reg) (s t : State) : Prop :=
  t.pc = s.pc ∧ SameRegsBut [dr] s t ∧ SameStatus s t ∧ SameMemory s t ∧ SameConsole s t

/-- The loop of PUTS and PUTSP (44_trap.md R123, R125), started at address `a` in `s`, ends in `t`: it reads a word,
stops there if it is 0x0000, and otherwise writes its characters and goes on at `a + 1` modulo 2^16. -/
inductive Prints (chars : Word → List Byte) : Word → State → State → Prop where
  | stop (a : Word) (s : State) (h : (memRead a s).1 = 0) : Prints chars a s (memRead a s).2
  | go (a : Word) (s t : State) (h : (memRead a s).1 ≠ 0)
      (rest : Prints chars (a + 1) (writeBytes (chars (memRead a s).1) (memRead a s).2) t) : Prints chars a s t

/-- `n` rounds of that loop, from address `a` in `s`, meet no zero word and leave `t`. -/
inductive Passes (chars : Word → List Byte) : Nat → Word → State → State → Prop where
  | done (a : Word) (s : State) : Passes chars 0 a s s
  | read (n : Nat) (a : Word) (s t : State) (h : (memRead a s).1 ≠ 0)
      (rest : Passes chars n (a + 1) (writeBytes (chars (memRead a s).1) (memRead a s).2) t) : Passes chars (n + 1) a s t

/-- The word of a fault record has the opcode its kind names (60_exceptions.md R151). -/
def FaultRecord.Consistent (f : FaultRecord) : Prop :=
  match f.kind with
  | .rti => f.word.extractLsb' 12 4 = 0x8
  | .res => f.word.extractLsb' 12 4 = 0xD
  | .trapVec =>
    f.word.extractLsb' 12 4 = 0xF ∧ Config.unknownTrapFaults = true ∧
      ¬ (0x20 ≤ (f.word.extractLsb' 0 8).toNat ∧ (f.word.extractLsb' 0 8).toNat ≤ 0x25)

/-- What every state the machine reaches has in common: memory in its canonical form; a fault record exactly while
FAULTED (10_state.md R35), of the right kind, with the pc just past the faulting word; and R7 holding the pc of a core
that HALT stopped or that is still inside a routine (44_trap.md R120). -/
def MachineInv (s : State) : Prop :=
  Memory.wf s.mem ∧
  (s.run = .faulted ↔ s.fault ≠ none) ∧
  (∀ f, s.fault = some f → f.Consistent ∧ s.pc = f.addr + 1) ∧
  (s.run = .halted → s.reg .r7 = s.pc) ∧
  (s.pending ≠ none → s.run = .running ∧ s.reg .r7 = s.pc)

end Sys2Proof.Machine
end

