-- ==== Sys2Proof/WellFormed.lean ====
section
/-! DEFINITION. Which instructions are well formed: those some word decodes to.
The field types admit every value the encoding admits, so one check is left: the six service vectors belong to the
alias rows, which stand before the general TRAP row (30_encoding.md R69). -/

namespace Sys2Proof

/-- The vector selects one of the six service routines (44_trap.md R120). -/
def isServiceVector (vect : BitVec 8) : Bool :=
  0x20 ≤ vect.toNat && vect.toNat ≤ 0x25

/-- The instruction is one that decoding yields (30_encoding.md R69). -/
def Instr.wf : Instr → Bool
  | .addReg _ _ _ | .addImm _ _ _ | .andReg _ _ _ | .andImm _ _ _ | .not _ _ => true
  | .br _ _ _ _ | .jmp _ | .jsr _ | .jsrr _ => true
  | .ld _ _ | .ldi _ _ | .ldr _ _ _ | .lea _ _ => true
  | .st _ _ | .sti _ _ | .str _ _ _ => true
  | .getc | .out | .puts | .inChar | .putsp | .halt => true
  | .trap _ vect => !isServiceVector vect
  | .rti _ | .res _ => true

end Sys2Proof
end

