-- ==== Sys2Proof/Certificates/Slice0/Obligations.lean ====
section
/-! DEFINITION. The statements for the provers: what SVM16 does, rule by rule of spec/. In a statement about an
instruction, `s` is the state after the fetch, so `s.pc` is the address of the instruction plus one (30_encoding.md R72). -/

open Sys2Proof Sys2Proof.Machine

/-! ## Reset and images -/

/-- R34, R170: the state after reset when no image word covers any cell. -/
def Obligations.ResetStateFields : Prop :=
  (∀ r, State.reset.reg r = 0) ∧ State.reset.pc = 0x3000 ∧ State.reset.cond = .z ∧ State.reset.run = .running ∧
  State.reset.fault = none ∧ (∀ a, State.reset.cell a = 0) ∧ resetWith [some [0x30, 0x00]] = .started State.reset

namespace Sys2Proof.Certificates

/-- The word an image's byte stream gives for address `a` (R171, R172): the origin is the first two bytes, big-endian;
payload word `k` stands at origin + k, which never wraps; an odd trailing byte gives none. -/
def imageWord (stream : List Byte) (a : Word) : Option Word :=
  match stream with
  | high :: low :: payload =>
    let origin := high.toNat * 256 + low.toNat
    if origin ≤ a.toNat then
      match payload[2 * (a.toNat - origin)]?, payload[2 * (a.toNat - origin) + 1]? with
      | some x, some y => some (BitVec.ofNat 16 (x.toNat * 256 + y.toNat))
      | _, _ => none
    else none
  | _ => none

/-- The word the images, loaded in order, leave at `a`: that of the last image that covers it, else 0x0000 (R173). -/
def loadedWord (images : List Image) (a : Word) : Word :=
  (images.reverse.findSome? (fun img => img.bind (fun stream => imageWord stream a))).getD 0

end Sys2Proof.Certificates

/-- R34, R170 to R174, R176: the state a reset with images starts in, and which lists of images are a load error (an odd
trailing byte is dropped by the spec's decision D14; R176 is its own inference). -/
def Obligations.ResetLoadsImagesInOrder : Prop :=
  (∀ images t, resetWith images = .started t →
    (∀ r, t.reg r = 0) ∧ t.pc = 0x3000 ∧ t.cond = .z ∧ t.run = .running ∧ t.fault = none ∧
    ∀ a, t.cell a = Sys2Proof.Certificates.loadedWord images a) ∧
  (∀ images, images ≠ [] → (∀ img ∈ images, ∃ stream, img = some stream ∧ 2 ≤ stream.length) →
    ∃ t, resetWith images = .started t) ∧
  (∀ images, (∃ img ∈ images, ∀ stream, img = some stream → stream.length < 2) → resetWith images = .loadError)

/-- R175 (the spec's decision D20): no image is a load error. R6: the run-status port shows a load error, RUNNING after a
reset that starts, and in any state the run state, a FAULTED one's with its fault record. -/
def Obligations.NoImageIsLoadError : Prop :=
  resetWith [] = .loadError ∧ (resetWith []).runStatus = .loadError ∧
  (∀ images, images ≠ [] → (∀ img ∈ images, ∃ stream, img = some stream ∧ 2 ≤ stream.length) →
    (resetWith images).runStatus = .running) ∧
  (∀ s : State, s.run = .running → s.runStatus = .running) ∧
  (∀ s : State, s.run = .halted → s.runStatus = .halted) ∧
  (∀ s : State, s.run = .faulted → s.runStatus = .faulted s.fault)

/-! ## Encoding -/

/-- R62, R64: words written out from the formats, one or two of each family. -/
def Obligations.SampleWordsDecode : Prop :=
  decode 0x1401 = .addReg .r2 .r0 .r1 ∧ decode 0x107D = .addImm .r0 .r1 0b11101 ∧
  decode 0x5642 = .andReg .r3 .r1 .r2 ∧ decode 0x596F = .andImm .r4 .r5 15 ∧ decode 0x927F = .not .r1 .r1 ∧
  decode 0x05FE = .br false true false 0x1FE ∧ decode 0xC1C0 = .jmp .r7 ∧ decode 0x4810 = .jsr 16 ∧
  decode 0x40C0 = .jsrr .r3 ∧ decode 0x2405 = .ld .r2 5 ∧ decode 0xA000 = .ldi .r0 0 ∧
  decode 0x68BF = .ldr .r4 .r2 0x3F ∧ decode 0xE3FD = .lea .r1 0x1FD ∧ decode 0x3604 = .st .r3 4 ∧
  decode 0xB201 = .sti .r1 1 ∧ decode 0x7B9F = .str .r5 .r6 0x1F ∧ decode 0xF020 = .getc ∧ decode 0xFF25 = .halt ∧
  decode 0xF030 = .trap 0 0x30 ∧ decode 0x8000 = .rti 0 ∧ decode 0xD123 = .res 0x123

/-- R64, R69: decoding an encoded instruction gives it back, every operand at every value. -/
def Obligations.DecodeOfEncode : Prop := ∀ i : Instr, i.wf = true → decode (encode i) = i

namespace Sys2Proof.Certificates

/-- The bits of a word that decoding to this instruction uses: all but the `x` bits of R64, which only TRAP, RTI and RES
keep. -/
def usedBits : Instr → Word
  | .addReg _ _ _ | .andReg _ _ _ => 0xFFE7
  | .not _ _ => 0xFFC0
  | .jmp _ => 0xF1C0
  | .jsrr _ => 0xF9C0
  | .getc | .out | .puts | .inChar | .putsp | .halt => 0xF0FF
  | _ => 0xFFFF

/-- A row of spec/opcode_table.json: its format, its mask and its match. -/
structure Row where
  format : String
  mask : Word
  value : Word
  deriving DecidableEq, Repr

/-- The word is one of the row's. -/
def Row.covers (r : Row) (w : Word) : Bool := w &&& r.mask == r.value

/-- spec/opcode_table.json, in its order; the mnemonic stands in for the format where the six alias rows share one, and
where ADD and AND do. -/
def rows : List Row :=
  [⟨"ADD-reg", 0xF020, 0x1000⟩, ⟨"ADD-imm", 0xF020, 0x1020⟩, ⟨"AND-reg", 0xF020, 0x5000⟩, ⟨"AND-imm", 0xF020, 0x5020⟩,
   ⟨"NOT", 0xF000, 0x9000⟩, ⟨"BR", 0xF000, 0x0000⟩, ⟨"JMP", 0xF000, 0xC000⟩, ⟨"JSR", 0xF800, 0x4800⟩,
   ⟨"JSRR", 0xF800, 0x4000⟩, ⟨"LD", 0xF000, 0x2000⟩, ⟨"LDI", 0xF000, 0xA000⟩, ⟨"LDR", 0xF000, 0x6000⟩,
   ⟨"LEA", 0xF000, 0xE000⟩, ⟨"ST", 0xF000, 0x3000⟩, ⟨"STI", 0xF000, 0xB000⟩, ⟨"STR", 0xF000, 0x7000⟩,
   ⟨"GETC", 0xF0FF, 0xF020⟩, ⟨"OUT", 0xF0FF, 0xF021⟩, ⟨"PUTS", 0xF0FF, 0xF022⟩, ⟨"IN", 0xF0FF, 0xF023⟩,
   ⟨"PUTSP", 0xF0FF, 0xF024⟩, ⟨"HALT", 0xF0FF, 0xF025⟩, ⟨"TRAP", 0xF000, 0xF000⟩, ⟨"RTI", 0xF000, 0x8000⟩,
   ⟨"RES", 0xF000, 0xD000⟩]

/-- The name in `rows` of the row an instruction belongs to. -/
def rowName : Instr → String
  | .addReg _ _ _ => "ADD-reg" | .addImm _ _ _ => "ADD-imm" | .andReg _ _ _ => "AND-reg" | .andImm _ _ _ => "AND-imm"
  | .not _ _ => "NOT" | .br _ _ _ _ => "BR" | .jmp _ => "JMP" | .jsr _ => "JSR" | .jsrr _ => "JSRR"
  | .ld _ _ => "LD" | .ldi _ _ => "LDI" | .ldr _ _ _ => "LDR" | .lea _ _ => "LEA" | .st _ _ => "ST"
  | .sti _ _ => "STI" | .str _ _ _ => "STR" | .getc => "GETC" | .out => "OUT" | .puts => "PUTS" | .inChar => "IN"
  | .putsp => "PUTSP" | .halt => "HALT" | .trap _ _ => "TRAP" | .rti _ => "RTI" | .res _ => "RES"

end Sys2Proof.Certificates

/-- R64, R67, R69: every word decodes to a well-formed instruction whose own word has the same used bits. -/
def Obligations.EncodeOfDecodeKeepsUsedBits : Prop :=
  ∀ w : Word, (decode w).wf = true ∧
    encode (decode w) &&& Sys2Proof.Certificates.usedBits (decode w) =
      w &&& Sys2Proof.Certificates.usedBits (decode w)

/-- R69: every word selects exactly one row, the first that covers it, and decoding gives that row's instruction; apart
from the general TRAP row no two rows cover the same word. -/
def Obligations.FirstCoveringRowIsDecoded : Prop :=
  (∀ w : Word, (Sys2Proof.Certificates.rows.find? (fun r => r.covers w)).map (fun r => r.format) =
    some (Sys2Proof.Certificates.rowName (decode w))) ∧
  ∀ w : Word, ∀ r ∈ Sys2Proof.Certificates.rows, ∀ q ∈ Sys2Proof.Certificates.rows,
    r.covers w = true → q.covers w = true → r.format ≠ "TRAP" → q.format ≠ "TRAP" → r = q

/-! ## Operands and flags -/

/-- R11: sign extension of a k-bit field value, as the rule's pseudocode computes it. -/
def Obligations.SignExtensionFormula : Prop :=
  ∀ (k : Nat) (v : BitVec k), 0 < k → k ≤ 16 →
    sext v = if v.getLsbD (k - 1) = false then BitVec.ofNat 16 v.toNat
      else BitVec.ofNat 16 (v.toNat ||| ((0xFFFF <<< k) &&& 0xFFFF))

/-- R12: zero extension of a byte (the spec's decisions D4, D9): the same number, bits 15:8 clear. -/
def Obligations.ZeroExtensionKeepsTheNumber : Prop :=
  ∀ b : Byte, (zext8 b).toNat = b.toNat ∧ ∀ j, 8 ≤ j → (zext8 b).getLsbD j = false

/-- R25: writing a result register sets the register and then the flag from the value now in it. -/
def Obligations.SetccFollowsTheWrittenValue : Prop :=
  ∀ (s : State) (r : Reg) (v : Word), (s.writeResult r v).reg r = v ∧
    FlagFor ((s.writeResult r v).reg r) (s.writeResult r v).cond

/-- R28: the one-hot bits of COND (the spec's decision D1), and BR's test over them. -/
def Obligations.CondOneHotAndBranchTest : Prop :=
  Cond.bits .p = 0b001 ∧ Cond.bits .z = 0b010 ∧ Cond.bits .n = 0b100 ∧
  ∀ n z p c, (maskBits n z p &&& Cond.bits c ≠ 0) ↔
    (n = true ∧ c = .n) ∨ (z = true ∧ c = .z) ∨ (p = true ∧ c = .p)

/-! ## Memory and the keyboard -/

/-- R41: a write is a plain store at every address. -/
def Obligations.MemWriteIsPlainStore : Prop :=
  ∀ (s : State) (a v : Word), (s.setCell a v).cell a = v ∧ (∀ c, c ≠ a → (s.setCell a v).cell c = s.cell c) ∧
    SameMemoryBut [a] s (s.setCell a v) ∧ SameRegsBut [] s (s.setCell a v) ∧ (s.setCell a v).pc = s.pc ∧
    (s.setCell a v).cond = s.cond ∧ SameStatus s (s.setCell a v) ∧ SameConsole s (s.setCell a v)

/-- R42: a read of any address but KBSR returns the cell and changes nothing, KBDR included. -/
def Obligations.MemReadIsPlainButAtKbsr : Prop :=
  (∀ (s : State) (a : Word), a ≠ Config.kbsrAddr → memRead a s = (s.cell a, s)) ∧
  ∀ s : State, memRead Config.kbdrAddr s = (s.cell Config.kbdrAddr, s)

/-- R44, R47: the two keyboard addresses and the ready value: the spec's decisions D2 and D3, not the source's words (log
entry 1). -/
def Obligations.KeyboardParameters : Prop :=
  Config.kbsrAddr = 0xFE00 ∧ Config.kbdrAddr = 0xFE02 ∧ Config.kbsrReady = 0x8000

/-- R43: a read of KBSR polls. With a key available KBSR and KBDR are both written and one byte is taken; with none, KBSR
is cleared and KBDR kept. `KeyAvailable()` is called exactly once: the count of calls grows by one and one settled answer, if
there was any, is used up: that calls are counted and answers settled in these two fields is the model's choice (log entry 3).
What a ready poll with no byte delivered leaves is in `PollTakesOneByteOrNone` (log entry 4). -/
def Obligations.KbsrReadPolls : Prop :=
  (∀ (s : State) (b : Byte) (rest : List Byte), drawKeyAvailable s = true → s.con.input = b :: rest →
    (memRead Config.kbsrAddr s).1 = Config.kbsrReady ∧
    (memRead Config.kbsrAddr s).2.cell Config.kbsrAddr = Config.kbsrReady ∧
    ((memRead Config.kbsrAddr s).2.cell Config.kbdrAddr).toNat = b.toNat ∧
    (memRead Config.kbsrAddr s).2.con.input = rest ∧
    SameMemoryBut [Config.kbsrAddr, Config.kbdrAddr] s (memRead Config.kbsrAddr s).2) ∧
  (∀ s : State, drawKeyAvailable s = false →
    (memRead Config.kbsrAddr s).1 = 0 ∧ (memRead Config.kbsrAddr s).2.cell Config.kbsrAddr = 0 ∧
    (memRead Config.kbsrAddr s).2.con.input = s.con.input ∧
    SameMemoryBut [Config.kbsrAddr] s (memRead Config.kbsrAddr s).2) ∧
  (∀ s : State, SameRegsBut [] s (memRead Config.kbsrAddr s).2 ∧ (memRead Config.kbsrAddr s).2.pc = s.pc ∧
    (memRead Config.kbsrAddr s).2.cond = s.cond ∧ SameStatus s (memRead Config.kbsrAddr s).2 ∧
    (memRead Config.kbsrAddr s).2.con.output = s.con.output ∧
    (memRead Config.kbsrAddr s).2.con.polls = s.con.polls + 1 ∧
    (memRead Config.kbsrAddr s).2.con.avail = s.con.avail.tail)

/-- R46, an inference the spec marks as its own: a read takes at most one byte, and one exactly when `KeyAvailable()`
answered true and it returns `KBSR_READY` from KBSR: the oldest delivered one, or, with none delivered, the free value that
has just arrived, which is the model's choice (log entry 4). -/
def Obligations.PollTakesOneByteOrNone : Prop :=
  ∀ (s : State) (a : Word),
    (a = 0xFE00 ∧ drawKeyAvailable s = true ∧ (memRead a s).1 = 0x8000 ∧
      ((∃ b, s.con.input = b :: (memRead a s).2.con.input ∧ ((memRead a s).2.cell 0xFE02).toNat = b.toNat) ∨
        (s.con.input = [] ∧ (memRead a s).2.con.input = [] ∧
          ((memRead a s).2.cell 0xFE02).toNat = (Config.arrivingByte s.con.polls).toNat))) ∨
    (a = 0xFE00 ∧ drawKeyAvailable s = false ∧ (memRead a s).1 = 0 ∧
      (memRead a s).2.con.input = s.con.input ∧ (memRead a s).2.cell 0xFE02 = s.cell 0xFE02) ∨
    (a ≠ 0xFE00 ∧ (memRead a s).2 = s)

/-- Two memories in canonical form that read the same everywhere are the same data. The canonical list form is the model's
choice (log entry 8); R40 and R30 give the cells and say nothing of it. -/
def Obligations.CanonicalMemoryIsUnique : Prop :=
  ∀ m m' : Memory, Memory.wf m → Memory.wf m' → (∀ a, Memory.cell m a = Memory.cell m' a) → m = m'

/-! ## Operate (40_operate.md) -/

/-- R80. -/
def Obligations.AddRegisterMode : Prop :=
  (∀ w : Word, w.extractLsb' 12 4 = 0x1 → w.getLsbD 5 = false → decode w =
    .addReg (.ofBits (w.extractLsb' 9 3)) (.ofBits (w.extractLsb' 6 3)) (.ofBits (w.extractLsb' 0 3))) ∧
  ∀ dr sr1 sr2 s, ∃ t, exec (.addReg dr sr1 sr2) s = .next t ∧ t.reg dr = s.reg sr1 + s.reg sr2 ∧
    FlagFor (s.reg sr1 + s.reg sr2) t.cond ∧ OnlyResult dr s t

/-- R81. -/
def Obligations.AddImmediateMode : Prop :=
  (∀ w : Word, w.extractLsb' 12 4 = 0x1 → w.getLsbD 5 = true → decode w =
    .addImm (.ofBits (w.extractLsb' 9 3)) (.ofBits (w.extractLsb' 6 3)) (w.extractLsb' 0 5)) ∧
  ∀ dr sr1 imm s, ∃ t, exec (.addImm dr sr1 imm) s = .next t ∧ t.reg dr = s.reg sr1 + imm.signExtend 16 ∧
    FlagFor (s.reg sr1 + imm.signExtend 16) t.cond ∧ OnlyResult dr s t

/-- R82. -/
def Obligations.AndRegisterMode : Prop :=
  (∀ w : Word, w.extractLsb' 12 4 = 0x5 → w.getLsbD 5 = false → decode w =
    .andReg (.ofBits (w.extractLsb' 9 3)) (.ofBits (w.extractLsb' 6 3)) (.ofBits (w.extractLsb' 0 3))) ∧
  ∀ dr sr1 sr2 s, ∃ t, exec (.andReg dr sr1 sr2) s = .next t ∧ t.reg dr = s.reg sr1 &&& s.reg sr2 ∧
    FlagFor (s.reg sr1 &&& s.reg sr2) t.cond ∧ OnlyResult dr s t

/-- R83. -/
def Obligations.AndImmediateMode : Prop :=
  (∀ w : Word, w.extractLsb' 12 4 = 0x5 → w.getLsbD 5 = true → decode w =
    .andImm (.ofBits (w.extractLsb' 9 3)) (.ofBits (w.extractLsb' 6 3)) (w.extractLsb' 0 5)) ∧
  ∀ dr sr1 imm s, ∃ t, exec (.andImm dr sr1 imm) s = .next t ∧ t.reg dr = s.reg sr1 &&& imm.signExtend 16 ∧
    FlagFor (s.reg sr1 &&& imm.signExtend 16) t.cond ∧ OnlyResult dr s t

/-- R84. -/
def Obligations.NotComplements : Prop :=
  (∀ w : Word, w.extractLsb' 12 4 = 0x9 → decode w =
    .not (.ofBits (w.extractLsb' 9 3)) (.ofBits (w.extractLsb' 6 3))) ∧
  ∀ dr sr s, ∃ t, exec (.not dr sr) s = .next t ∧ (∀ j < 16, (t.reg dr).getLsbD j = !(s.reg sr).getLsbD j) ∧
    FlagFor (~~~ s.reg sr) t.cond ∧ OnlyResult dr s t

/-! ## Control (41_control.md) -/

/-- R90. -/
def Obligations.BranchOnCondition : Prop :=
  (∀ w : Word, w.extractLsb' 12 4 = 0x0 →
    decode w = .br (w.getLsbD 11) (w.getLsbD 10) (w.getLsbD 9) (w.extractLsb' 0 9)) ∧
  ∀ n z p off s, ∃ t, exec (.br n z p off) s = .next t ∧
    ((n = true ∧ s.cond = .n) ∨ (z = true ∧ s.cond = .z) ∨ (p = true ∧ s.cond = .p) →
      t.pc = s.pc + off.signExtend 16) ∧
    (¬ ((n = true ∧ s.cond = .n) ∨ (z = true ∧ s.cond = .z) ∨ (p = true ∧ s.cond = .p)) → t.pc = s.pc) ∧
    t.cond = s.cond ∧ SameRegsBut [] s t ∧ SameStatus s t ∧ SameMemory s t ∧ SameConsole s t

/-- R91. -/
def Obligations.JumpThroughRegister : Prop :=
  (∀ w : Word, w.extractLsb' 12 4 = 0xC → decode w = .jmp (.ofBits (w.extractLsb' 6 3))) ∧
  ∀ base s, ∃ t, exec (.jmp base) s = .next t ∧ t.pc = s.reg base ∧
    t.cond = s.cond ∧ SameRegsBut [] s t ∧ SameStatus s t ∧ SameMemory s t ∧ SameConsole s t

/-- R92. -/
def Obligations.JsrLinksAndJumps : Prop :=
  (∀ w : Word, w.extractLsb' 12 4 = 0x4 → w.getLsbD 11 = true → decode w = .jsr (w.extractLsb' 0 11)) ∧
  ∀ off s, ∃ t, exec (.jsr off) s = .next t ∧ t.reg .r7 = s.pc ∧ t.pc = s.pc + off.signExtend 16 ∧
    t.cond = s.cond ∧ SameRegsBut [.r7] s t ∧ SameStatus s t ∧ SameMemory s t ∧ SameConsole s t

/-- R93: R7 is written before the base is read, so `JSRR R7` falls through (the spec's decision D8). -/
def Obligations.JsrrLinksThenReadsBase : Prop :=
  (∀ w : Word, w.extractLsb' 12 4 = 0x4 → w.getLsbD 11 = false → decode w = .jsrr (.ofBits (w.extractLsb' 6 3))) ∧
  ∀ base s, ∃ t, exec (.jsrr base) s = .next t ∧ t.reg .r7 = s.pc ∧
    t.pc = (if base = .r7 then s.pc else s.reg base) ∧
    t.cond = s.cond ∧ SameRegsBut [.r7] s t ∧ SameStatus s t ∧ SameMemory s t ∧ SameConsole s t

/-! ## Loads (42_load.md) -/

/-- R100. -/
def Obligations.LoadPcRelative : Prop :=
  (∀ w : Word, w.extractLsb' 12 4 = 0x2 → decode w = .ld (.ofBits (w.extractLsb' 9 3)) (w.extractLsb' 0 9)) ∧
  ∀ dr (off : BitVec 9) s, ∃ t, exec (.ld dr off) s = .next t ∧
    t.reg dr = (memRead (s.pc + off.signExtend 16) s).1 ∧ FlagFor (t.reg dr) t.cond ∧
    t.pc = s.pc ∧ SameRegsBut [dr] s t ∧ SameStatus s t ∧
    SameMemory (memRead (s.pc + off.signExtend 16) s).2 t ∧ SameConsole (memRead (s.pc + off.signExtend 16) s).2 t ∧
    (s.pc + off.signExtend 16 ≠ Config.kbsrAddr →
      t.reg dr = s.cell (s.pc + off.signExtend 16) ∧ SameMemory s t ∧ SameConsole s t)

/-- R101: the pointer is read first, the data second, in the state the first read leaves. -/
def Obligations.LoadIndirect : Prop :=
  (∀ w : Word, w.extractLsb' 12 4 = 0xA → decode w = .ldi (.ofBits (w.extractLsb' 9 3)) (w.extractLsb' 0 9)) ∧
  ∀ dr (off : BitVec 9) s, ∃ t p v, exec (.ldi dr off) s = .next t ∧
    p = memRead (s.pc + off.signExtend 16) s ∧ v = memRead p.1 p.2 ∧
    t.reg dr = v.1 ∧ FlagFor v.1 t.cond ∧ t.pc = s.pc ∧ SameRegsBut [dr] s t ∧ SameStatus s t ∧
    SameMemory v.2 t ∧ SameConsole v.2 t ∧
    (s.pc + off.signExtend 16 ≠ Config.kbsrAddr → s.cell (s.pc + off.signExtend 16) ≠ Config.kbsrAddr →
      t.reg dr = s.cell (s.cell (s.pc + off.signExtend 16)) ∧ SameMemory s t ∧ SameConsole s t)

/-- R101, an inference the spec marks as its own: one LDI cannot poll twice, so it takes at most one byte. -/
def Obligations.LdiPollsAtMostOnce : Prop :=
  ∀ dr (off : BitVec 9) s, ∃ t, exec (.ldi dr off) s = .next t ∧ t.con.polls ≤ s.con.polls + 1 ∧
    ∃ taken, s.con.input = taken ++ t.con.input ∧ taken.length ≤ 1

/-- R102. -/
def Obligations.LoadBasePlusOffset : Prop :=
  (∀ w : Word, w.extractLsb' 12 4 = 0x6 → decode w =
    .ldr (.ofBits (w.extractLsb' 9 3)) (.ofBits (w.extractLsb' 6 3)) (w.extractLsb' 0 6)) ∧
  ∀ dr base (off : BitVec 6) s, ∃ t, exec (.ldr dr base off) s = .next t ∧
    t.reg dr = (memRead (s.reg base + off.signExtend 16) s).1 ∧ FlagFor (t.reg dr) t.cond ∧
    t.pc = s.pc ∧ SameRegsBut [dr] s t ∧ SameStatus s t ∧
    SameMemory (memRead (s.reg base + off.signExtend 16) s).2 t ∧
    SameConsole (memRead (s.reg base + off.signExtend 16) s).2 t ∧
    (s.reg base + off.signExtend 16 ≠ Config.kbsrAddr →
      t.reg dr = s.cell (s.reg base + off.signExtend 16) ∧ SameMemory s t ∧ SameConsole s t)

/-- R103: no memory is read, so nothing polls, and the flag is set. -/
def Obligations.LoadEffectiveAddress : Prop :=
  (∀ w : Word, w.extractLsb' 12 4 = 0xE → decode w = .lea (.ofBits (w.extractLsb' 9 3)) (w.extractLsb' 0 9)) ∧
  ∀ dr (off : BitVec 9) s, ∃ t, exec (.lea dr off) s = .next t ∧ t.reg dr = s.pc + off.signExtend 16 ∧
    FlagFor (s.pc + off.signExtend 16) t.cond ∧ OnlyResult dr s t

/-! ## Stores (43_store.md) -/

/-- R110. -/
def Obligations.StorePcRelative : Prop :=
  (∀ w : Word, w.extractLsb' 12 4 = 0x3 → decode w = .st (.ofBits (w.extractLsb' 9 3)) (w.extractLsb' 0 9)) ∧
  ∀ sr (off : BitVec 9) s, ∃ t, exec (.st sr off) s = .next t ∧
    t.cell (s.pc + off.signExtend 16) = s.reg sr ∧ SameMemoryBut [s.pc + off.signExtend 16] s t ∧
    t.pc = s.pc ∧ t.cond = s.cond ∧ SameRegsBut [] s t ∧ SameStatus s t ∧ SameConsole s t

/-- R111: the pointer is read first (and polls if it stands in KBSR), then the store is made. -/
def Obligations.StoreIndirect : Prop :=
  (∀ w : Word, w.extractLsb' 12 4 = 0xB → decode w = .sti (.ofBits (w.extractLsb' 9 3)) (w.extractLsb' 0 9)) ∧
  ∀ sr (off : BitVec 9) s, ∃ t p, exec (.sti sr off) s = .next t ∧ p = memRead (s.pc + off.signExtend 16) s ∧
    t.cell p.1 = s.reg sr ∧ SameMemoryBut [p.1] p.2 t ∧ SameConsole p.2 t ∧
    t.pc = s.pc ∧ t.cond = s.cond ∧ SameRegsBut [] s t ∧ SameStatus s t ∧
    (s.pc + off.signExtend 16 ≠ Config.kbsrAddr →
      t.cell (s.cell (s.pc + off.signExtend 16)) = s.reg sr ∧
      SameMemoryBut [s.cell (s.pc + off.signExtend 16)] s t ∧ SameConsole s t)

/-- R112. -/
def Obligations.StoreBasePlusOffset : Prop :=
  (∀ w : Word, w.extractLsb' 12 4 = 0x7 → decode w =
    .str (.ofBits (w.extractLsb' 9 3)) (.ofBits (w.extractLsb' 6 3)) (w.extractLsb' 0 6)) ∧
  ∀ sr base (off : BitVec 6) s, ∃ t, exec (.str sr base off) s = .next t ∧
    t.cell (s.reg base + off.signExtend 16) = s.reg sr ∧ SameMemoryBut [s.reg base + off.signExtend 16] s t ∧
    t.pc = s.pc ∧ t.cond = s.cond ∧ SameRegsBut [] s t ∧ SameStatus s t ∧ SameConsole s t

/-! ## TRAP (44_trap.md) -/

/-- R121 (the byte zero-extended by the spec's decision D9): with a byte delivered GETC completes; with none it waits, R7
written and nothing else (that the wait is a state of its own is the model's choice, log entry 5). -/
def Obligations.GetcReadsAByte : Prop :=
  (∀ w : Word, w.extractLsb' 12 4 = 0xF → w.extractLsb' 0 8 = 0x20 → decode w = .getc) ∧
  (∀ s b rest, s.con.input = b :: rest → ∃ t, exec .getc s = .next t ∧ (t.reg .r0).toNat = b.toNat ∧
    FlagFor (t.reg .r0) t.cond ∧ t.reg .r7 = s.pc ∧ SameRegsBut [.r0, .r7] s t ∧ t.pc = s.pc ∧ t.run = s.run ∧
    t.fault = s.fault ∧ t.pending = none ∧ SameMemory s t ∧ t.con = { s.con with input := rest }) ∧
  (∀ s, s.con.input = [] → ∃ t, exec .getc s = .next t ∧ t.pending = some (.reading .getc) ∧ t.reg .r7 = s.pc ∧
    SameRegsBut [.r7] s t ∧ t.cond = s.cond ∧ t.pc = s.pc ∧ t.run = s.run ∧ t.fault = s.fault ∧ SameMemory s t ∧
    SameConsole s t)

/-- R122. -/
def Obligations.OutWritesLowByte : Prop :=
  (∀ w : Word, w.extractLsb' 12 4 = 0xF → w.extractLsb' 0 8 = 0x21 → decode w = .out) ∧
  ∀ s, ∃ t, exec .out s = .next t ∧
    t.con = { s.con with output := s.con.output ++ [.byte ((s.reg .r0).extractLsb' 0 8), .flush] } ∧
    t.reg .r7 = s.pc ∧ SameRegsBut [.r7] s t ∧ t.cond = s.cond ∧ t.pc = s.pc ∧ SameStatus s t ∧ SameMemory s t

namespace Sys2Proof.Certificates

/-- What one step of a string routine leaves of memory and console: the loop from R0 has ended and the output is flushed, or
it has made 65,536 rounds, one for each address, met no zero word, and the core is still inside the routine. -/
def LoopOutcome (chars : Word → List Byte) (r : StringRoutine) (s t : State) : Prop :=
  (∃ u, Prints chars (s.reg .r0) s u ∧ t.con = { u.con with output := u.con.output ++ [.flush] } ∧ SameMemory u t ∧
    t.pending = none) ∨
  ∃ u, Passes chars 65536 (s.reg .r0) s u ∧ t.con = u.con ∧ SameMemory u t ∧ t.pending = some (.walking r)

end Sys2Proof.Certificates

/-- R123: PUTS runs its loop and flushes at its end. A loop that has met no zero word in 65,536 rounds is back at R0 and goes
on in the next step, for ever if none comes: that a step of the model ends there is its choice (log entry 9). -/
def Obligations.PutsRunsItsLoop : Prop :=
  (∀ w : Word, w.extractLsb' 12 4 = 0xF → w.extractLsb' 0 8 = 0x22 → decode w = .puts) ∧
  (∀ s, ∃ t, exec .puts s = .next t ∧
    Sys2Proof.Certificates.LoopOutcome (fun c => [c.extractLsb' 0 8]) .puts (linkReturn s) t ∧
    t.reg .r7 = s.pc ∧ SameRegsBut [.r7] s t ∧ t.cond = s.cond ∧ t.pc = s.pc ∧ t.run = s.run ∧ t.fault = s.fault ∧
    SameMemoryBut [0xFE00, 0xFE02] s t) ∧
  ∀ s, s.run = .running → s.pending = some (.walking .puts) → ∃ t, step s = .next t ∧
    Sys2Proof.Certificates.LoopOutcome (fun c => [c.extractLsb' 0 8]) .puts s t ∧
    SameRegsBut [] s t ∧ t.cond = s.cond ∧ t.pc = s.pc ∧ t.run = s.run ∧ t.fault = s.fault ∧
    SameMemoryBut [0xFE00, 0xFE02] s t

/-- R123: the bytes PUTS writes for a string that lies in plain cells. -/
def Obligations.PutsWritesTheString : Prop :=
  ∀ (s : State) (cs : List Word),
    (∀ i (h : i < cs.length), s.cell (s.reg .r0 + BitVec.ofNat 16 i) = cs[i] ∧ cs[i] ≠ 0 ∧
      s.reg .r0 + BitVec.ofNat 16 i ≠ 0xFE00) →
    s.cell (s.reg .r0 + BitVec.ofNat 16 cs.length) = 0 → s.reg .r0 + BitVec.ofNat 16 cs.length ≠ 0xFE00 →
    ∃ t, exec .puts s = .next t ∧
      t.con = { s.con with output := s.con.output ++ cs.map (fun c => .byte (c.extractLsb' 0 8)) ++ [.flush] } ∧
      t.reg .r7 = s.pc ∧ SameRegsBut [.r7] s t ∧ t.cond = s.cond ∧ t.pc = s.pc ∧ t.run = s.run ∧ t.fault = s.fault ∧
      t.pending = none ∧ SameMemory s t

/-- R124 (the byte zero-extended by the spec's decision D9): with a byte delivered IN writes the prompt, reads, echoes and
flushes; with none it waits after the prompt (that the wait is a state of its own is the model's choice, log entry 5). -/
def Obligations.InPromptsReadsAndEchoes : Prop :=
  (∀ w : Word, w.extractLsb' 12 4 = 0xF → w.extractLsb' 0 8 = 0x23 → decode w = .inChar) ∧
  (∀ s b rest, s.con.input = b :: rest → ∃ t, exec .inChar s = .next t ∧ (t.reg .r0).toNat = b.toNat ∧
    FlagFor (t.reg .r0) t.cond ∧ t.reg .r7 = s.pc ∧ SameRegsBut [.r0, .r7] s t ∧ t.pc = s.pc ∧ t.run = s.run ∧
    t.fault = s.fault ∧ t.pending = none ∧ SameMemory s t ∧
    t.con = { s.con with
      input := rest
      output := s.con.output ++ Config.inPrompt.map .byte ++ [.byte b, .flush] }) ∧
  (∀ s, s.con.input = [] → ∃ t, exec .inChar s = .next t ∧ t.pending = some (.reading .inChar) ∧ t.reg .r7 = s.pc ∧
    SameRegsBut [.r7] s t ∧ t.cond = s.cond ∧ t.pc = s.pc ∧ t.run = s.run ∧ t.fault = s.fault ∧ SameMemory s t ∧
    t.con = { s.con with output := s.con.output ++ Config.inPrompt.map .byte })

/-- R125: PUTSP runs its loop and flushes at its end. A loop that has met no zero word in 65,536 rounds is back at R0 and goes
on in the next step, for ever if none comes: that a step of the model ends there is its choice (log entry 9). -/
def Obligations.PutspRunsItsLoop : Prop :=
  (∀ w : Word, w.extractLsb' 12 4 = 0xF → w.extractLsb' 0 8 = 0x24 → decode w = .putsp) ∧
  (∀ s, ∃ t, exec .putsp s = .next t ∧
    Sys2Proof.Certificates.LoopOutcome
      (fun c => c.extractLsb' 0 8 :: if c.extractLsb' 8 8 = 0 then [] else [c.extractLsb' 8 8]) .putsp (linkReturn s) t ∧
    t.reg .r7 = s.pc ∧ SameRegsBut [.r7] s t ∧ t.cond = s.cond ∧ t.pc = s.pc ∧ t.run = s.run ∧ t.fault = s.fault ∧
    SameMemoryBut [0xFE00, 0xFE02] s t) ∧
  ∀ s, s.run = .running → s.pending = some (.walking .putsp) → ∃ t, step s = .next t ∧
    Sys2Proof.Certificates.LoopOutcome
      (fun c => c.extractLsb' 0 8 :: if c.extractLsb' 8 8 = 0 then [] else [c.extractLsb' 8 8]) .putsp s t ∧
    SameRegsBut [] s t ∧ t.cond = s.cond ∧ t.pc = s.pc ∧ t.run = s.run ∧ t.fault = s.fault ∧
    SameMemoryBut [0xFE00, 0xFE02] s t

namespace Sys2Proof.Certificates

/-- No cell but KBSR is 0x0000, and the next poll finds a key whose byte is not 0x00. -/
def NoEndInSight (s : State) : Prop :=
  (∀ a, a ≠ Config.kbsrAddr → s.cell a ≠ 0) ∧ drawKeyAvailable s = true ∧ nextByte s ≠ 0

end Sys2Proof.Certificates

/-- R123, R125: where no cell on the walk is 0x0000 and the poll on it finds the keyboard ready, PUTS and PUTSP do not end:
the core is still inside the routine, with one poll made and again no zero cell, and so it is after the next step in the same
case; the steps in between are the model's choice (log entry 9). -/
def Obligations.WalkWithoutZeroDoesNotEnd : Prop :=
  (∀ s, Sys2Proof.Certificates.NoEndInSight s →
    (∃ t, exec .puts s = .next t ∧ t.pending = some (.walking .puts) ∧ t.con.polls = s.con.polls + 1 ∧
      ∀ a, a ≠ Config.kbsrAddr → t.cell a ≠ 0) ∧
    (∃ t, exec .putsp s = .next t ∧ t.pending = some (.walking .putsp) ∧ t.con.polls = s.con.polls + 1 ∧
      ∀ a, a ≠ Config.kbsrAddr → t.cell a ≠ 0)) ∧
  ∀ s r, s.run = .running → s.pending = some (.walking r) → Sys2Proof.Certificates.NoEndInSight s →
    ∃ t, step s = .next t ∧ t.run = .running ∧ t.pending = some (.walking r) ∧ t.con.polls = s.con.polls + 1 ∧
      ∀ a, a ≠ Config.kbsrAddr → t.cell a ≠ 0

/-- R126. -/
def Obligations.HaltStopsTheRun : Prop :=
  (∀ w : Word, w.extractLsb' 12 4 = 0xF → w.extractLsb' 0 8 = 0x25 → decode w = .halt) ∧
  ∀ s, ∃ t, exec .halt s = .next t ∧ t.run = .halted ∧
    t.con = { s.con with output := s.con.output ++ Config.haltNotice.map .byte ++ [.flush] } ∧
    t.reg .r7 = s.pc ∧ SameRegsBut [.r7] s t ∧ t.cond = s.cond ∧ t.pc = s.pc ∧ t.fault = s.fault ∧ t.pending = s.pending ∧
    SameMemory s t

/-- R127: a vector outside 0x20..0x25 writes R7, and then faults or does nothing, by the parameter. -/
def Obligations.UnknownTrapVector : Prop :=
  (∀ w : Word, w.extractLsb' 12 4 = 0xF → (w.extractLsb' 0 8).toNat < 0x20 ∨ 0x25 < (w.extractLsb' 0 8).toNat →
    decode w = .trap (w.extractLsb' 8 4) (w.extractLsb' 0 8)) ∧
  ∀ (ign : BitVec 4) (v : BitVec 8) s, v.toNat < 0x20 ∨ 0x25 < v.toNat → ∃ t, exec (.trap ign v) s = .next t ∧
    t.reg .r7 = s.pc ∧ SameRegsBut [.r7] s t ∧ t.cond = s.cond ∧ t.pc = s.pc ∧ t.pending = s.pending ∧
    SameMemory s t ∧ SameConsole s t ∧
    if Config.unknownTrapFaults = true then
      t.run = .faulted ∧ t.fault = some ⟨.trapVec, s.pc - 1, 0xF#4 ++ ign ++ v⟩
    else t.run = s.run ∧ t.fault = s.fault

/-- R120: the general TRAP row runs the routine its vector selects, whatever bits 11:8 are. Decoding gives these vectors to
their own rows, so that the general row runs them too is the model's choice (log entry 15). -/
def Obligations.TrapRunsTheSelectedRoutine : Prop :=
  ∀ (ign : BitVec 4) s, exec (.trap ign 0x20) s = exec .getc s ∧ exec (.trap ign 0x21) s = exec .out s ∧
    exec (.trap ign 0x22) s = exec .puts s ∧ exec (.trap ign 0x23) s = exec .inChar s ∧
    exec (.trap ign 0x24) s = exec .putsp s ∧ exec (.trap ign 0x25) s = exec .halt s

/-! ## The decode fault (45_unimplemented.md, 60_exceptions.md) -/

/-- R140. -/
def Obligations.RtiFaults : Prop :=
  (∀ w : Word, w.extractLsb' 12 4 = 0x8 → decode w = .rti (w.extractLsb' 0 12)) ∧
  ∀ (low : BitVec 12) s, ∃ t, exec (.rti low) s = .next t ∧ t.run = .faulted ∧
    t.fault = some ⟨.rti, s.pc - 1, 0x8#4 ++ low⟩ ∧
    t.pc = s.pc ∧ t.cond = s.cond ∧ SameRegsBut [] s t ∧ t.pending = s.pending ∧ SameMemory s t ∧ SameConsole s t

/-- R141. -/
def Obligations.ResFaults : Prop :=
  (∀ w : Word, w.extractLsb' 12 4 = 0xD → decode w = .res (w.extractLsb' 0 12)) ∧
  ∀ (low : BitVec 12) s, ∃ t, exec (.res low) s = .next t ∧ t.run = .faulted ∧
    t.fault = some ⟨.res, s.pc - 1, 0xD#4 ++ low⟩ ∧
    t.pc = s.pc ∧ t.cond = s.cond ∧ SameRegsBut [] s t ∧ t.pending = s.pending ∧ SameMemory s t ∧ SameConsole s t

/-! ## The step (30_encoding.md R72) -/

/-- R72: a running core that is inside no routine fetches through `MemRead`, moves the pc past the word and runs the
instruction the word decodes to. -/
def Obligations.StepRunsTheDecodedInstruction : Prop :=
  ∀ s : State, s.run = .running → s.pending = none →
    step s = exec (decode (memRead s.pc s).1) ((memRead s.pc s).2.setPc (s.pc + 1))

/-- R29, R8: an ended run does not move, and a core that waits without input goes on waiting (log entries 7 and 5: that
these are steps which change nothing is the model's choice). -/
def Obligations.EndedOrStuckDoesNotMove : Prop :=
  (∀ s, Ended s → step s = .next s) ∧ (∀ s, Stuck s → step s = .next s)

/-- R8, R72: a GETC or IN that waited, and is then given a byte, ends exactly as if the byte had been there before (log
entry 5). -/
def Obligations.DeliveredByteResumesTheWait : Prop :=
  ∀ (s : State) (b : Byte), s.run = .running → s.con.input = [] →
    (∃ t u, exec .getc s = .next t ∧ t.pending = some (.reading .getc) ∧ exec .getc (deliver b s) = .next u ∧ u.pending = none ∧
      step (deliver b t) = .next u) ∧
    (∃ t u, exec .inChar s = .next t ∧ t.pending = some (.reading .inChar) ∧ exec .inChar (deliver b s) = .next u ∧ u.pending = none ∧
      step (deliver b t) = .next u)

/-- R155, an inference the spec marks as its own: a fetch from KBSR polls and runs the status it stored: RTI with a key
available, a no-op without. The byte of a ready poll with none delivered is the free value of log entry 4. -/
def Obligations.FetchFromKbsr : Prop :=
  (∀ s : State, s.run = .running → s.pending = none → s.pc = 0xFE00 → drawKeyAvailable s = true →
    ∃ t, step s = .next t ∧ t.run = .faulted ∧ t.fault = some ⟨.rti, 0xFE00, 0x8000⟩ ∧ t.pc = 0xFE01 ∧
      t.cell 0xFE00 = 0x8000 ∧ (t.cell 0xFE02).toNat = (nextByte s).toNat ∧ t.con.input = s.con.input.tail) ∧
  (∀ s : State, s.run = .running → s.pending = none → s.pc = 0xFE00 → drawKeyAvailable s = false →
    ∃ t, step s = .next t ∧ t.run = .running ∧ t.fault = s.fault ∧ t.pc = 0xFE01 ∧ t.cell 0xFE00 = 0 ∧
      SameRegsBut [] s t ∧ t.cond = s.cond ∧ t.con.input = s.con.input)

/-- R58, an inference the spec marks as its own: a word stored just after the storing instruction is what the next step runs. -/
def Obligations.StoredWordIsFetchedNext : Prop :=
  ∀ (s : State) (sr : Reg), s.run = .running → s.pending = none → s.pc ≠ 0xFE00 → s.pc + 1 ≠ 0xFE00 →
    s.cell s.pc = 0x3#4 ++ sr.toBits ++ 0#9 →
    ∃ t, step s = .next t ∧ t.pc = s.pc + 1 ∧ t.cell (s.pc + 1) = s.reg sr ∧
      step t = exec (decode (s.reg sr)) (t.setPc (s.pc + 2))

/-! ## Rules of the whole machine -/

namespace Sys2Proof.Certificates

/-- The vector selects a routine that reads a byte into R0: GETC or IN. -/
def readsAByte (v : BitVec 8) : Bool := v == 0x20 || v == 0x23

/-- The general registers an instruction may write (R21). -/
def registersWritten : Instr → List Reg
  | .addReg d _ _ | .addImm d _ _ | .andReg d _ _ | .andImm d _ _ | .not d _ => [d]
  | .ld d _ | .ldi d _ | .ldr d _ _ | .lea d _ => [d]
  | .jsr _ | .jsrr _ => [.r7]
  | .getc | .inChar => [.r0, .r7]
  | .out | .puts | .putsp | .halt => [.r7]
  | .trap _ v => if readsAByte v then [.r0, .r7] else [.r7]
  | .br _ _ _ _ | .jmp _ | .st _ _ | .sti _ _ | .str _ _ _ | .rti _ | .res _ => []

/-- The register from whose value an instruction sets COND (R26), GETC and IN apart. -/
def flagSource : Instr → Option Reg
  | .addReg d _ _ | .addImm d _ _ | .andReg d _ _ | .andImm d _ _ | .not d _ => some d
  | .ld d _ | .ldi d _ | .ldr d _ _ | .lea d _ => some d
  | _ => none

/-- The instruction reads a byte into R0: GETC, IN, or the general TRAP row with their vectors. -/
def readsByte : Instr → Bool
  | .getc | .inChar => true
  | .trap _ v => readsAByte v
  | _ => false

/-- The instruction stores to memory. -/
def stores : Instr → Bool
  | .st _ _ | .sti _ _ | .str _ _ _ => true
  | _ => false

/-- The instruction may read memory, and so may poll (R49). -/
def readsMemory : Instr → Bool
  | .ld _ _ | .ldi _ _ | .ldr _ _ _ | .sti _ _ | .puts | .putsp => true
  | .trap _ v => v == 0x22 || v == 0x24
  | _ => false

/-- The instruction may change the pc after the fetch (R23). -/
def jumps : Instr → Bool
  | .br _ _ _ _ | .jmp _ | .jsr _ | .jsrr _ => true
  | _ => false

/-- The outcome with COND forgotten. -/
def forgetCond : Host.Outcome State Fault Refusal → Host.Outcome State Fault Refusal
  | .next t => .next (t.setCond .z)
  | .fault r => .fault r
  | .refused r => .refused r

end Sys2Proof.Certificates

/-- R21, R26: which instructions write a general register, and which write COND, each by `setcc` of the register it
wrote; GETC and IN do once their byte is there (that they answer a waiting state before is the model's choice, log entry 5). -/
def Obligations.WritersOfRegistersAndCond : Prop :=
  ∀ i s t, exec i s = .next t →
    SameRegsBut (Sys2Proof.Certificates.registersWritten i) s t ∧
    (Sys2Proof.Certificates.readsByte i = true →
      (s.con.input ≠ [] ∧ FlagFor (t.reg .r0) t.cond) ∨ (s.con.input = [] ∧ t.cond = s.cond)) ∧
    (Sys2Proof.Certificates.readsByte i = false →
      match Sys2Proof.Certificates.flagSource i with
      | some r => FlagFor (t.reg r) t.cond
      | none => t.cond = s.cond)

/-- R27: only BR reads COND: what any other instruction does is the same whatever COND was. -/
def Obligations.OnlyBranchReadsCond : Prop :=
  ∀ (i : Instr) (s : State) (c : Cond), (∀ n z p off, i ≠ .br n z p off) →
    Sys2Proof.Certificates.forgetCond (exec i (s.setCond c)) = Sys2Proof.Certificates.forgetCond (exec i s)

/-- R23: after the fetch only BR, JMP, JSR and JSRR change the pc. -/
def Obligations.OnlyControlChangesPc : Prop :=
  ∀ i s t, exec i s = .next t → Sys2Proof.Certificates.jumps i = false → t.pc = s.pc

/-- R49: an instruction that stores nothing leaves every byte of memory outside KBSR and KBDR alone, and all of memory if it
makes no poll; one that neither stores nor reads memory makes none. -/
def Obligations.OnlyStoresAndPollsWriteMemory : Prop :=
  ∀ i s t, exec i s = .next t → Sys2Proof.Certificates.stores i = false →
    SameMemoryBut [0xFE00, 0xFE02] s t ∧ (t.con.polls = s.con.polls → SameMemory s t) ∧
    (Sys2Proof.Certificates.readsMemory i = false → t.con.polls = s.con.polls ∧ SameMemory s t)

/-- R150: only RTI, RES and, if `unknownTrapFaults`, an unknown TRAP vector raise the fault; only HALT halts. -/
def Obligations.OnlyExceptionIsTheDecodeFault : Prop :=
  ∀ i s t, i.wf = true → exec i s = .next t →
    match i with
    | .rti _ | .res _ => t.run = .faulted ∧ t.fault ≠ none
    | .trap _ _ => if Config.unknownTrapFaults = true then t.run = .faulted ∧ t.fault ≠ none
        else t.run = s.run ∧ t.fault = s.fault
    | .halt => t.run = .halted ∧ t.fault = s.fault
    | _ => t.run = s.run ∧ t.fault = s.fault

/-- R8, R9: a step takes input only from the front of the stream and adds output only at the end of the log. -/
def Obligations.StreamsOnlyMoveForward : Prop :=
  ∀ s t, step s = .next t →
    (∃ taken, s.con.input = taken ++ t.con.input) ∧ (∃ written, t.con.output = s.con.output ++ written)

/-- R69, R123, R150: every step from every state answers a next state: no state stops the model. That an ended run and a
core inside a routine have steps is the model's choice: of an ended one log entry 7, of one that waits in `ReadByte()` log
entry 5, of one that walks on over a string without an end log entry 9. -/
def Obligations.EveryStepAnswers : Prop := ∀ s : State, ∃ t, step s = .next t

/-- The invariant holds after reset, with or without images. Its clauses on the canonical form of memory (log entry 8) and
on the unfinished routine, none at reset (log entries 5 and 9), are the model's choices. -/
def Obligations.ResetMeetsTheInvariant : Prop :=
  MachineInv State.reset ∧ ∀ images t, resetWith images = .started t → MachineInv t

/-- Every step keeps the invariant: memory canonical, a consistent fault record exactly while FAULTED with the pc just past
the faulting word, and R7 = pc in a core that halted or is still inside a routine. The canonical form of memory (log entry 8),
the states inside a routine (log entries 5 and 9) and the steps of ended states (log entry 7) are the model's choices. -/
def Obligations.StepKeepsTheInvariant : Prop := ∀ s t, MachineInv s → step s = .next t → MachineInv t
end

