-- ==== Sys2Proof/Laws/Decode.lean ====
section
/-! SUPPORT. How the fields of a word are read back from an encoded instruction (30_encoding.md R63, R64): decoding cuts
a word into its opcode and the twelve operand bits, and these lemmas say what each cut finds. -/

namespace Sys2Proof

@[simp] theorem Reg.ofBits_toBits (r : Reg) : Reg.ofBits r.toBits = r := by cases r <;> rfl

@[simp] theorem Reg.toBits_ofBits (b : BitVec 3) : (Reg.ofBits b).toBits = b := by
  revert b; decide

/-- Bits 15:12 of an encoded instruction are its opcode. -/
theorem encode_opcode (i : Instr) : (encode i).extractLsb' 12 4 = i.opcode :=
  BitVec.extractLsb'_append_eq_left

/-- A field below bit 12 of an encoded instruction is that field of its operand bits. -/
theorem encode_field (i : Instr) (lo n : Nat) (h : lo + n ≤ 12) :
    (encode i).extractLsb' lo n = i.operandBits.extractLsb' lo n :=
  BitVec.extractLsb'_append_eq_of_add_le h

/-- A bit below bit 12 of an encoded instruction is that bit of its operand bits. -/
theorem encode_bit (i : Instr) (j : Nat) (h : j < 12) :
    bitField (encode i) j = i.operandBits.getLsbD j := by
  have e := @BitVec.getLsbD_append 4 12 j i.opcode i.operandBits
  rw [if_pos h] at e
  exact e

/-- A word of opcode 0xF is a TRAP. -/
theorem decode_of_trap_opcode {w : Word} (h : w.extractLsb' 12 4 = 0xF) : decode w = decodeTrap w := by
  unfold decode; rw [h]; rfl

/-- A TRAP word whose vector is no service vector is the general row's. -/
theorem decodeTrap_unknown {w : Word} (h : (w.extractLsb' 0 8).toNat < 0x20 ∨ 0x25 < (w.extractLsb' 0 8).toNat) :
    decodeTrap w = .trap (w.extractLsb' 8 4) (w.extractLsb' 0 8) := by
  unfold decodeTrap
  generalize BitVec.extractLsb' 0 8 w = v at h ⊢
  split <;> first | rfl | omega

/-- The layout of ADD and AND in immediate mode, bits 11:0. -/
theorem layout_imm (d a : BitVec 3) (k : BitVec 1) (imm : BitVec 5) :
    BitVec.extractLsb' (n := 12) 9 3 (d ++ a ++ k ++ imm) = d ∧
    BitVec.extractLsb' (n := 12) 6 3 (d ++ a ++ k ++ imm) = a ∧
    BitVec.getLsbD (w := 12) (d ++ a ++ k ++ imm) 5 = k.getLsbD 0 ∧
    BitVec.extractLsb' (n := 12) 0 5 (d ++ a ++ k ++ imm) = imm := by
  refine ⟨?_, ?_, ?_, ?_⟩
  · exact (BitVec.extractLsb'_append_eq_of_le (xlo := imm) (by decide)).trans
      ((BitVec.extractLsb'_append_eq_of_le (xlo := k) (by decide)).trans BitVec.extractLsb'_append_eq_left)
  · exact (BitVec.extractLsb'_append_eq_of_le (xlo := imm) (by decide)).trans
      ((BitVec.extractLsb'_append_eq_of_le (xlo := k) (by decide)).trans BitVec.extractLsb'_append_eq_right)
  · exact (BitVec.getLsbD_append (x := d ++ a ++ k) (y := imm)).trans
      ((BitVec.getLsbD_append (x := d ++ a) (y := k)).trans rfl)
  · exact BitVec.extractLsb'_append_eq_right

/-- The layout of ADD and AND in register mode, bits 11:0. -/
theorem layout_reg (d a x b : BitVec 3) :
    BitVec.extractLsb' (n := 12) 9 3 (d ++ a ++ x ++ b) = d ∧
    BitVec.extractLsb' (n := 12) 6 3 (d ++ a ++ x ++ b) = a ∧
    BitVec.getLsbD (w := 12) (d ++ a ++ x ++ b) 5 = x.getLsbD 2 ∧
    BitVec.extractLsb' (n := 12) 0 3 (d ++ a ++ x ++ b) = b := by
  refine ⟨?_, ?_, ?_, ?_⟩
  · exact (BitVec.extractLsb'_append_eq_of_le (xlo := b) (by decide)).trans
      ((BitVec.extractLsb'_append_eq_of_le (xlo := x) (by decide)).trans BitVec.extractLsb'_append_eq_left)
  · exact (BitVec.extractLsb'_append_eq_of_le (xlo := b) (by decide)).trans
      ((BitVec.extractLsb'_append_eq_of_le (xlo := x) (by decide)).trans BitVec.extractLsb'_append_eq_right)
  · exact (BitVec.getLsbD_append (x := d ++ a ++ x) (y := b)).trans
      ((BitVec.getLsbD_append (x := d ++ a) (y := x)).trans rfl)
  · exact BitVec.extractLsb'_append_eq_right

/-- The layout of NOT, LDR, STR, JMP and JSRR, bits 11:0. -/
theorem layout_base (d a : BitVec 3) (off : BitVec 6) :
    BitVec.extractLsb' (n := 12) 9 3 (d ++ a ++ off) = d ∧
    BitVec.extractLsb' (n := 12) 6 3 (d ++ a ++ off) = a ∧
    BitVec.getLsbD (w := 12) (d ++ a ++ off) 11 = d.getLsbD 2 ∧
    BitVec.extractLsb' (n := 12) 0 6 (d ++ a ++ off) = off := by
  refine ⟨?_, ?_, ?_, ?_⟩
  · exact (BitVec.extractLsb'_append_eq_of_le (xlo := off) (by decide)).trans BitVec.extractLsb'_append_eq_left
  · exact (BitVec.extractLsb'_append_eq_of_le (xlo := off) (by decide)).trans BitVec.extractLsb'_append_eq_right
  · exact (BitVec.getLsbD_append (x := d ++ a) (y := off)).trans
      ((BitVec.getLsbD_append (x := d) (y := a)).trans rfl)
  · exact BitVec.extractLsb'_append_eq_right

/-- The layout of LD, LDI, LEA, ST, STI, bits 11:0. -/
theorem layout_pcRel (d : BitVec 3) (off : BitVec 9) :
    BitVec.extractLsb' (n := 12) 9 3 (d ++ off) = d ∧
    BitVec.extractLsb' (n := 12) 0 9 (d ++ off) = off :=
  ⟨BitVec.extractLsb'_append_eq_left, BitVec.extractLsb'_append_eq_right⟩

/-- The layout of BR, bits 11:0. -/
theorem layout_br (n z p : Bool) (off : BitVec 9) :
    BitVec.getLsbD (w := 12) (BitVec.ofBool n ++ BitVec.ofBool z ++ BitVec.ofBool p ++ off) 11 = n ∧
    BitVec.getLsbD (w := 12) (BitVec.ofBool n ++ BitVec.ofBool z ++ BitVec.ofBool p ++ off) 10 = z ∧
    BitVec.getLsbD (w := 12) (BitVec.ofBool n ++ BitVec.ofBool z ++ BitVec.ofBool p ++ off) 9 = p ∧
    BitVec.extractLsb' (n := 12) 0 9 (BitVec.ofBool n ++ BitVec.ofBool z ++ BitVec.ofBool p ++ off) = off := by
  refine ⟨?_, ?_, ?_, BitVec.extractLsb'_append_eq_right⟩ <;>
  exact (BitVec.getLsbD_append (x := BitVec.ofBool n ++ BitVec.ofBool z ++ BitVec.ofBool p) (y := off)).trans
    (by cases n <;> cases z <;> cases p <;> rfl)

/-- The layout of JSR, bits 11:0. -/
theorem layout_jsr (k : BitVec 1) (off : BitVec 11) :
    BitVec.getLsbD (w := 12) (k ++ off) 11 = k.getLsbD 0 ∧ BitVec.extractLsb' (n := 12) 0 11 (k ++ off) = off :=
  ⟨BitVec.getLsbD_append (x := k) (y := off), BitVec.extractLsb'_append_eq_right⟩

/-- The layout of TRAP, bits 11:0. -/
theorem layout_trap (ign : BitVec 4) (v : BitVec 8) :
    BitVec.extractLsb' (n := 12) 8 4 (ign ++ v) = ign ∧ BitVec.extractLsb' (n := 12) 0 8 (ign ++ v) = v :=
  ⟨BitVec.extractLsb'_append_eq_left, BitVec.extractLsb'_append_eq_right⟩

end Sys2Proof
end

