-- ==== Sys2Proof/Laws/Memory.lean ====
section
/-! SUPPORT. Memory: what a read gives after a write, and that every write keeps the canonical form (20_memory.md R40,
R41). The read laws hold of every list, canonical or not. -/

namespace Sys2Proof.Machine

/-! ## Bytes -/

theorem Memory.byteAt_filter_ne (m : Memory) {a k : Nat} (h : k ≠ a) :
    Memory.byteAt (m.filter (fun c => c.1 != a)) k = Memory.byteAt m k := by
  induction m with
  | nil => rfl
  | cons c m ih =>
    by_cases e : c.1 = a
    · have hk : c.1 ≠ k := fun hc => h (hc.symm.trans e)
      simp [e, Memory.byteAt, ih, Ne.symm h]
    · simp [e, Memory.byteAt, ih]

theorem Memory.byteAt_filter_same (m : Memory) (a : Nat) :
    Memory.byteAt (m.filter (fun c => c.1 != a)) a = 0 := by
  induction m with
  | nil => rfl
  | cons c m ih =>
    by_cases e : c.1 = a <;> simp [e, Memory.byteAt, ih]

theorem Memory.byteAt_insertByte_ne (m : Memory) {a k : Nat} (v : Byte) (h : k ≠ a) :
    Memory.byteAt (Memory.insertByte m a v) k = Memory.byteAt m k := by
  induction m with
  | nil => simp [Memory.insertByte, Memory.byteAt, Ne.symm h]
  | cons c m ih =>
    simp only [Memory.insertByte]
    split <;> simp [Memory.byteAt, Ne.symm h, ih]

theorem Memory.byteAt_insertByte_same (m : Memory) (a : Nat) (v : Byte) (h : ∀ c ∈ m, c.1 ≠ a) :
    Memory.byteAt (Memory.insertByte m a v) a = v := by
  induction m with
  | nil => simp [Memory.insertByte, Memory.byteAt]
  | cons c m ih =>
    have hc := h c (by simp)
    simp only [Memory.insertByte]
    split
    · simp [Memory.byteAt]
    · simp [Memory.byteAt, hc, ih (fun d hd => h d (by simp [hd]))]

/-- A byte read after it was written is the byte written. -/
theorem Memory.byteAt_setByte_same (m : Memory) (a : Nat) (v : Byte) :
    Memory.byteAt (Memory.setByte m a v) a = v := by
  unfold Memory.setByte
  split
  · rw [Memory.byteAt_filter_same]; exact Eq.symm ‹v = 0›
  · exact Memory.byteAt_insertByte_same _ _ _ (by simp)

/-- Writing one byte leaves every other byte alone. -/
theorem Memory.byteAt_setByte_ne (m : Memory) {a k : Nat} (v : Byte) (h : k ≠ a) :
    Memory.byteAt (Memory.setByte m a v) k = Memory.byteAt m k := by
  unfold Memory.setByte
  split
  · exact Memory.byteAt_filter_ne m h
  · rw [Memory.byteAt_insertByte_ne _ _ h, Memory.byteAt_filter_ne m h]

/-! ## The canonical form -/

theorem Memory.wf_nil : Memory.wf [] := by decide

theorem Memory.mem_insertByte (m : Memory) (a : Nat) (v : Byte) (c : Host.Cell) :
    c ∈ Memory.insertByte m a v ↔ c = (a, v) ∨ c ∈ m := by
  induction m with
  | nil => simp [Memory.insertByte]
  | cons d m ih =>
    simp only [Memory.insertByte]
    split
    · simp
    · simp [ih, or_left_comm]

theorem Memory.pairwise_insertByte (m : Memory) (a : Nat) (v : Byte)
    (h : m.Pairwise (fun x y => x.1 < y.1)) (hne : ∀ c ∈ m, c.1 ≠ a) :
    (Memory.insertByte m a v).Pairwise (fun x y => x.1 < y.1) := by
  induction m with
  | nil => simp [Memory.insertByte]
  | cons d m ih =>
    obtain ⟨hd, hm⟩ := List.pairwise_cons.mp h
    simp only [Memory.insertByte]
    split
    · rename_i hlt
      refine List.pairwise_cons.mpr ⟨fun c hc => ?_, h⟩
      rcases List.mem_cons.mp hc with rfl | hc
      · exact hlt
      · exact lt_trans hlt (hd c hc)
    · rename_i hge
      have hda : d.1 < a := lt_of_le_of_ne (not_lt.mp hge) (hne d (by simp))
      refine List.pairwise_cons.mpr ⟨fun c hc => ?_, ih hm (fun c hc => hne c (by simp [hc]))⟩
      rcases (Memory.mem_insertByte m a v c).mp hc with rfl | hc
      · exact hda
      · exact hd c hc

/-- Writing one byte inside the address space keeps the canonical form. -/
theorem Memory.wf_setByte {m : Memory} (h : Memory.wf m) {a : Nat} (ha : a < 131072) (v : Byte) :
    Memory.wf (Memory.setByte m a v) := by
  unfold Memory.setByte
  split
  · exact ⟨h.1.filter _, fun c hc => h.2 c (List.mem_filter.mp hc).1⟩
  · rename_i hv
    refine ⟨Memory.pairwise_insertByte _ _ _ (h.1.filter _) (by simp), fun c hc => ?_⟩
    rcases (Memory.mem_insertByte _ _ _ _).mp hc with rfl | hc
    · exact ⟨ha, hv⟩
    · exact h.2 c (List.mem_filter.mp hc).1

/-! ## Cells -/

theorem wordOfBytes_high_low (v : Word) : wordOfBytes (highByte v) (lowByte v) = v := by
  apply BitVec.eq_of_getLsbD_eq
  intro i hi
  have e := @BitVec.getLsbD_append 8 8 i (highByte v) (lowByte v)
  refine Eq.trans e ?_
  split <;> simp only [highByte, lowByte, BitVec.getLsbD_extractLsb']
  · simp [*]
  · rename_i hge
    have h8 : i - 8 < 8 := by omega
    have h88 : 8 + (i - 8) = i := by omega
    simp [h8, h88]

theorem Memory.byteAt_setCell (m : Memory) (a v : Word) (k : Nat) :
    Memory.byteAt (Memory.setCell m a v) k =
      if k = 2 * a.toNat then lowByte v else if k = 2 * a.toNat + 1 then highByte v else Memory.byteAt m k := by
  unfold Memory.setCell
  by_cases h1 : k = 2 * a.toNat + 1
  · subst h1
    rw [Memory.byteAt_setByte_same, if_neg (by omega), if_pos rfl]
  · rw [Memory.byteAt_setByte_ne _ _ h1]
    by_cases h0 : k = 2 * a.toNat
    · subst h0; rw [Memory.byteAt_setByte_same, if_pos rfl]
    · rw [Memory.byteAt_setByte_ne _ _ h0, if_neg h0, if_neg h1]

/-- A cell read after it was written is the word written. -/
@[simp] theorem Memory.cell_setCell_same (m : Memory) (a v : Word) :
    Memory.cell (Memory.setCell m a v) a = v := by
  unfold Memory.cell
  rw [Memory.byteAt_setCell, Memory.byteAt_setCell, if_neg (by omega), if_pos rfl, if_pos rfl]
  exact wordOfBytes_high_low v

/-- Writing one cell leaves every other cell alone. -/
theorem Memory.cell_setCell_ne (m : Memory) {a c : Word} (v : Word) (h : c ≠ a) :
    Memory.cell (Memory.setCell m a v) c = Memory.cell m c := by
  have hn : c.toNat ≠ a.toNat := fun e => h (BitVec.eq_of_toNat_eq e)
  unfold Memory.cell
  rw [Memory.byteAt_setCell, Memory.byteAt_setCell, if_neg (by omega), if_neg (by omega), if_neg (by omega),
    if_neg (by omega)]

/-- Writing a cell keeps the canonical form. -/
theorem Memory.wf_setCell {m : Memory} (h : Memory.wf m) (a v : Word) : Memory.wf (Memory.setCell m a v) := by
  have ha := a.isLt
  exact Memory.wf_setByte (Memory.wf_setByte h (by omega) _) (by omega) _

@[simp] theorem State.cell_setCell_same (s : State) (a v : Word) : (s.setCell a v).cell a = v :=
  Memory.cell_setCell_same _ _ _

theorem State.cell_setCell_ne (s : State) {a c : Word} (v : Word) (h : c ≠ a) :
    (s.setCell a v).cell c = s.cell c :=
  Memory.cell_setCell_ne _ _ h

end Sys2Proof.Machine
end

