-- ==== Sys2Proof/Laws/State.lean ====
section
/-! SUPPORT. One lemma per field per update of the state, true by definition, so that no proof unfolds a record update;
and the register file's read after write. -/

namespace Sys2Proof.Machine

/-! ## The register file (10_state.md R20) -/

@[simp] theorem Regs.get_set_same (f : Regs) (r : Reg) (v : Word) : (f.set r v).get r = v := by
  cases r <;> rfl

theorem Regs.get_set_ne (f : Regs) {r q : Reg} (v : Word) (h : q ≠ r) : (f.set r v).get q = f.get q := by
  cases r <;> cases q <;> first | rfl | exact absurd rfl h

/-- Two register files that read the same are the same. -/
theorem Regs.ext_get {f g : Regs} (h : ∀ r, f.get r = g.get r) : f = g := by
  cases f; cases g
  have h0 := h .r0; have h1 := h .r1; have h2 := h .r2; have h3 := h .r3
  have h4 := h .r4; have h5 := h .r5; have h6 := h .r6; have h7 := h .r7
  simp only [Regs.get] at h0 h1 h2 h3 h4 h5 h6 h7
  simp only [h0, h1, h2, h3, h4, h5, h6, h7]

theorem State.reg_eq (s : State) (r : Reg) : s.reg r = s.regs.get r := rfl

theorem State.cell_eq (s : State) (a : Word) : s.cell a = Memory.cell s.mem a := rfl

/-! ## `State.setReg` -/

@[simp] theorem State.setReg_regs (s : State) (r : Reg) (v : Word) : (s.setReg r v).regs = s.regs.set r v := rfl
@[simp] theorem State.setReg_pc (s : State) (r : Reg) (v : Word) : (s.setReg r v).pc = s.pc := rfl
@[simp] theorem State.setReg_cond (s : State) (r : Reg) (v : Word) : (s.setReg r v).cond = s.cond := rfl
@[simp] theorem State.setReg_run (s : State) (r : Reg) (v : Word) : (s.setReg r v).run = s.run := rfl
@[simp] theorem State.setReg_fault (s : State) (r : Reg) (v : Word) : (s.setReg r v).fault = s.fault := rfl
@[simp] theorem State.setReg_mem (s : State) (r : Reg) (v : Word) : (s.setReg r v).mem = s.mem := rfl
@[simp] theorem State.setReg_pending (s : State) (r : Reg) (v : Word) : (s.setReg r v).pending = s.pending := rfl
@[simp] theorem State.setReg_con (s : State) (r : Reg) (v : Word) : (s.setReg r v).con = s.con := rfl
@[simp] theorem State.setReg_reg_same (s : State) (r : Reg) (v : Word) : (s.setReg r v).reg r = v := Regs.get_set_same _ _ _
theorem State.setReg_reg_ne (s : State) {r : Reg} (v : Word) {q : Reg} (h : q ≠ r) : (s.setReg r v).reg q = s.reg q :=
  Regs.get_set_ne _ _ h
@[simp] theorem State.setReg_cell (s : State) (r : Reg) (v : Word) (c : Word) : (s.setReg r v).cell c = s.cell c := rfl

/-! ## `State.setPc` -/

@[simp] theorem State.setPc_regs (s : State) (v : Word) : (s.setPc v).regs = s.regs := rfl
@[simp] theorem State.setPc_pc (s : State) (v : Word) : (s.setPc v).pc = v := rfl
@[simp] theorem State.setPc_cond (s : State) (v : Word) : (s.setPc v).cond = s.cond := rfl
@[simp] theorem State.setPc_run (s : State) (v : Word) : (s.setPc v).run = s.run := rfl
@[simp] theorem State.setPc_fault (s : State) (v : Word) : (s.setPc v).fault = s.fault := rfl
@[simp] theorem State.setPc_mem (s : State) (v : Word) : (s.setPc v).mem = s.mem := rfl
@[simp] theorem State.setPc_pending (s : State) (v : Word) : (s.setPc v).pending = s.pending := rfl
@[simp] theorem State.setPc_con (s : State) (v : Word) : (s.setPc v).con = s.con := rfl
@[simp] theorem State.setPc_reg (s : State) (v : Word) (q : Reg) : (s.setPc v).reg q = s.reg q := rfl
@[simp] theorem State.setPc_cell (s : State) (v : Word) (c : Word) : (s.setPc v).cell c = s.cell c := rfl

/-! ## `State.setCond` -/

@[simp] theorem State.setCond_regs (s : State) (c : Cond) : (s.setCond c).regs = s.regs := rfl
@[simp] theorem State.setCond_pc (s : State) (c : Cond) : (s.setCond c).pc = s.pc := rfl
@[simp] theorem State.setCond_cond (s : State) (c : Cond) : (s.setCond c).cond = c := rfl
@[simp] theorem State.setCond_run (s : State) (c : Cond) : (s.setCond c).run = s.run := rfl
@[simp] theorem State.setCond_fault (s : State) (c : Cond) : (s.setCond c).fault = s.fault := rfl
@[simp] theorem State.setCond_mem (s : State) (c : Cond) : (s.setCond c).mem = s.mem := rfl
@[simp] theorem State.setCond_pending (s : State) (c : Cond) : (s.setCond c).pending = s.pending := rfl
@[simp] theorem State.setCond_con (s : State) (c : Cond) : (s.setCond c).con = s.con := rfl
@[simp] theorem State.setCond_reg (s : State) (c : Cond) (q : Reg) : (s.setCond c).reg q = s.reg q := rfl
@[simp] theorem State.setCond_cell (s : State) (c : Cond) (a : Word) : (s.setCond c).cell a = s.cell a := rfl

/-! ## `State.writeResult` -/

@[simp] theorem State.writeResult_regs (s : State) (r : Reg) (v : Word) : (s.writeResult r v).regs = s.regs.set r v := rfl
@[simp] theorem State.writeResult_pc (s : State) (r : Reg) (v : Word) : (s.writeResult r v).pc = s.pc := rfl
@[simp] theorem State.writeResult_cond (s : State) (r : Reg) (v : Word) : (s.writeResult r v).cond = flagOf v := rfl
@[simp] theorem State.writeResult_run (s : State) (r : Reg) (v : Word) : (s.writeResult r v).run = s.run := rfl
@[simp] theorem State.writeResult_fault (s : State) (r : Reg) (v : Word) : (s.writeResult r v).fault = s.fault := rfl
@[simp] theorem State.writeResult_mem (s : State) (r : Reg) (v : Word) : (s.writeResult r v).mem = s.mem := rfl
@[simp] theorem State.writeResult_pending (s : State) (r : Reg) (v : Word) : (s.writeResult r v).pending = s.pending := rfl
@[simp] theorem State.writeResult_con (s : State) (r : Reg) (v : Word) : (s.writeResult r v).con = s.con := rfl
@[simp] theorem State.writeResult_reg_same (s : State) (r : Reg) (v : Word) : (s.writeResult r v).reg r = v := Regs.get_set_same _ _ _
theorem State.writeResult_reg_ne (s : State) {r : Reg} (v : Word) {q : Reg} (h : q ≠ r) : (s.writeResult r v).reg q = s.reg q :=
  Regs.get_set_ne _ _ h
@[simp] theorem State.writeResult_cell (s : State) (r : Reg) (v : Word) (c : Word) : (s.writeResult r v).cell c = s.cell c := rfl

/-! ## `State.setCell` -/

@[simp] theorem State.setCell_regs (s : State) (a v : Word) : (s.setCell a v).regs = s.regs := rfl
@[simp] theorem State.setCell_pc (s : State) (a v : Word) : (s.setCell a v).pc = s.pc := rfl
@[simp] theorem State.setCell_cond (s : State) (a v : Word) : (s.setCell a v).cond = s.cond := rfl
@[simp] theorem State.setCell_run (s : State) (a v : Word) : (s.setCell a v).run = s.run := rfl
@[simp] theorem State.setCell_fault (s : State) (a v : Word) : (s.setCell a v).fault = s.fault := rfl
@[simp] theorem State.setCell_mem (s : State) (a v : Word) : (s.setCell a v).mem = Memory.setCell s.mem a v := rfl
@[simp] theorem State.setCell_pending (s : State) (a v : Word) : (s.setCell a v).pending = s.pending := rfl
@[simp] theorem State.setCell_con (s : State) (a v : Word) : (s.setCell a v).con = s.con := rfl
@[simp] theorem State.setCell_reg (s : State) (a v : Word) (q : Reg) : (s.setCell a v).reg q = s.reg q := rfl

/-! ## `State.emit` -/

@[simp] theorem State.emit_regs (s : State) (es : List OutEvent) : (s.emit es).regs = s.regs := rfl
@[simp] theorem State.emit_pc (s : State) (es : List OutEvent) : (s.emit es).pc = s.pc := rfl
@[simp] theorem State.emit_cond (s : State) (es : List OutEvent) : (s.emit es).cond = s.cond := rfl
@[simp] theorem State.emit_run (s : State) (es : List OutEvent) : (s.emit es).run = s.run := rfl
@[simp] theorem State.emit_fault (s : State) (es : List OutEvent) : (s.emit es).fault = s.fault := rfl
@[simp] theorem State.emit_mem (s : State) (es : List OutEvent) : (s.emit es).mem = s.mem := rfl
@[simp] theorem State.emit_pending (s : State) (es : List OutEvent) : (s.emit es).pending = s.pending := rfl
@[simp] theorem State.emit_con (s : State) (es : List OutEvent) : (s.emit es).con = { s.con with output := s.con.output ++ es } := rfl
@[simp] theorem State.emit_reg (s : State) (es : List OutEvent) (q : Reg) : (s.emit es).reg q = s.reg q := rfl
@[simp] theorem State.emit_cell (s : State) (es : List OutEvent) (c : Word) : (s.emit es).cell c = s.cell c := rfl

/-! ## `writeBytes` -/

@[simp] theorem writeBytes_regs (s : State) (bs : List Byte) : (writeBytes bs s).regs = s.regs := rfl
@[simp] theorem writeBytes_pc (s : State) (bs : List Byte) : (writeBytes bs s).pc = s.pc := rfl
@[simp] theorem writeBytes_cond (s : State) (bs : List Byte) : (writeBytes bs s).cond = s.cond := rfl
@[simp] theorem writeBytes_run (s : State) (bs : List Byte) : (writeBytes bs s).run = s.run := rfl
@[simp] theorem writeBytes_fault (s : State) (bs : List Byte) : (writeBytes bs s).fault = s.fault := rfl
@[simp] theorem writeBytes_mem (s : State) (bs : List Byte) : (writeBytes bs s).mem = s.mem := rfl
@[simp] theorem writeBytes_pending (s : State) (bs : List Byte) : (writeBytes bs s).pending = s.pending := rfl
@[simp] theorem writeBytes_con (s : State) (bs : List Byte) : (writeBytes bs s).con = { s.con with output := s.con.output ++ bs.map .byte } := rfl
@[simp] theorem writeBytes_reg (s : State) (bs : List Byte) (q : Reg) : (writeBytes bs s).reg q = s.reg q := rfl
@[simp] theorem writeBytes_cell (s : State) (bs : List Byte) (c : Word) : (writeBytes bs s).cell c = s.cell c := rfl

/-! ## `flush` -/

@[simp] theorem flush_regs (s : State) : (flush s).regs = s.regs := rfl
@[simp] theorem flush_pc (s : State) : (flush s).pc = s.pc := rfl
@[simp] theorem flush_cond (s : State) : (flush s).cond = s.cond := rfl
@[simp] theorem flush_run (s : State) : (flush s).run = s.run := rfl
@[simp] theorem flush_fault (s : State) : (flush s).fault = s.fault := rfl
@[simp] theorem flush_mem (s : State) : (flush s).mem = s.mem := rfl
@[simp] theorem flush_pending (s : State) : (flush s).pending = s.pending := rfl
@[simp] theorem flush_con (s : State) : (flush s).con = { s.con with output := s.con.output ++ [.flush] } := rfl
@[simp] theorem flush_reg (s : State) (q : Reg) : (flush s).reg q = s.reg q := rfl
@[simp] theorem flush_cell (s : State) (c : Word) : (flush s).cell c = s.cell c := rfl

/-! ## `linkReturn` -/

@[simp] theorem linkReturn_regs (s : State) : (linkReturn s).regs = s.regs.set .r7 s.pc := rfl
@[simp] theorem linkReturn_pc (s : State) : (linkReturn s).pc = s.pc := rfl
@[simp] theorem linkReturn_cond (s : State) : (linkReturn s).cond = s.cond := rfl
@[simp] theorem linkReturn_run (s : State) : (linkReturn s).run = s.run := rfl
@[simp] theorem linkReturn_fault (s : State) : (linkReturn s).fault = s.fault := rfl
@[simp] theorem linkReturn_mem (s : State) : (linkReturn s).mem = s.mem := rfl
@[simp] theorem linkReturn_pending (s : State) : (linkReturn s).pending = s.pending := rfl
@[simp] theorem linkReturn_con (s : State) : (linkReturn s).con = s.con := rfl
@[simp] theorem linkReturn_reg_same (s : State) : (linkReturn s).reg .r7 = s.pc := Regs.get_set_same s.regs .r7 s.pc
theorem linkReturn_reg_ne (s : State) {q : Reg} (h : q ≠ .r7) : (linkReturn s).reg q = s.reg q :=
  Regs.get_set_ne _ _ h
@[simp] theorem linkReturn_cell (s : State) (c : Word) : (linkReturn s).cell c = s.cell c := rfl

/-! ## `raiseDecodeFault` -/

@[simp] theorem raiseDecodeFault_regs (s : State) (k : FaultKind) (w : Word) : (raiseDecodeFault k w s).regs = s.regs := rfl
@[simp] theorem raiseDecodeFault_pc (s : State) (k : FaultKind) (w : Word) : (raiseDecodeFault k w s).pc = s.pc := rfl
@[simp] theorem raiseDecodeFault_cond (s : State) (k : FaultKind) (w : Word) : (raiseDecodeFault k w s).cond = s.cond := rfl
@[simp] theorem raiseDecodeFault_run (s : State) (k : FaultKind) (w : Word) : (raiseDecodeFault k w s).run = .faulted := rfl
@[simp] theorem raiseDecodeFault_fault (s : State) (k : FaultKind) (w : Word) : (raiseDecodeFault k w s).fault = some ⟨k, s.pc - 1, w⟩ := rfl
@[simp] theorem raiseDecodeFault_mem (s : State) (k : FaultKind) (w : Word) : (raiseDecodeFault k w s).mem = s.mem := rfl
@[simp] theorem raiseDecodeFault_pending (s : State) (k : FaultKind) (w : Word) : (raiseDecodeFault k w s).pending = s.pending := rfl
@[simp] theorem raiseDecodeFault_con (s : State) (k : FaultKind) (w : Word) : (raiseDecodeFault k w s).con = s.con := rfl
@[simp] theorem raiseDecodeFault_reg (s : State) (k : FaultKind) (w : Word) (q : Reg) : (raiseDecodeFault k w s).reg q = s.reg q := rfl
@[simp] theorem raiseDecodeFault_cell (s : State) (k : FaultKind) (w : Word) (c : Word) : (raiseDecodeFault k w s).cell c = s.cell c := rfl

/-! ## `afterKeyAvailable` -/

@[simp] theorem afterKeyAvailable_regs (s : State) : (afterKeyAvailable s).regs = s.regs := rfl
@[simp] theorem afterKeyAvailable_pc (s : State) : (afterKeyAvailable s).pc = s.pc := rfl
@[simp] theorem afterKeyAvailable_cond (s : State) : (afterKeyAvailable s).cond = s.cond := rfl
@[simp] theorem afterKeyAvailable_run (s : State) : (afterKeyAvailable s).run = s.run := rfl
@[simp] theorem afterKeyAvailable_fault (s : State) : (afterKeyAvailable s).fault = s.fault := rfl
@[simp] theorem afterKeyAvailable_mem (s : State) : (afterKeyAvailable s).mem = s.mem := rfl
@[simp] theorem afterKeyAvailable_pending (s : State) : (afterKeyAvailable s).pending = s.pending := rfl
@[simp] theorem afterKeyAvailable_con (s : State) : (afterKeyAvailable s).con = { s.con with avail := s.con.avail.tail, polls := s.con.polls + 1 } := rfl
@[simp] theorem afterKeyAvailable_reg (s : State) (q : Reg) : (afterKeyAvailable s).reg q = s.reg q := rfl
@[simp] theorem afterKeyAvailable_cell (s : State) (c : Word) : (afterKeyAvailable s).cell c = s.cell c := rfl

end Sys2Proof.Machine
end

