-- ==== Sys2Proof/Laws/Keyboard.lean ====
section
/-! SUPPORT. What a poll and a `MemRead` can do (20_memory.md R42, R43), said once. -/

namespace Sys2Proof.Machine

theorem kbdrAddr_ne_kbsrAddr : Config.kbdrAddr ≠ Config.kbsrAddr := by decide

/-- The next byte is the oldest delivered one. -/
theorem nextByte_cons {s : State} {b : Byte} {rest : List Byte} (hi : s.con.input = b :: rest) : nextByte s = b := by
  unfold nextByte; rw [hi]

/-- With none delivered it is the free value. -/
theorem nextByte_nil {s : State} (hi : s.con.input = []) : nextByte s = Config.arrivingByte s.con.polls := by
  unfold nextByte; rw [hi]

/-- A ready poll: KBSR, KBDR, the input, and nothing else but the settled answers and the count of polls. -/
theorem pollKeyboard_ready {s : State} (hd : drawKeyAvailable s = true) :
    pollKeyboard s =
      { s with
        mem := Memory.setCell (Memory.setCell s.mem Config.kbsrAddr Config.kbsrReady) Config.kbdrAddr (zext8 (nextByte s))
        con := { s.con with input := s.con.input.tail, avail := s.con.avail.tail, polls := s.con.polls + 1 } } := by
  simp only [pollKeyboard, hd]; rfl

/-- A poll that finds no key: KBSR is cleared. -/
theorem pollKeyboard_idle {s : State} (hd : drawKeyAvailable s = false) :
    pollKeyboard s =
      { s with
        mem := Memory.setCell s.mem Config.kbsrAddr 0
        con := { s.con with avail := s.con.avail.tail, polls := s.con.polls + 1 } } := by
  simp only [pollKeyboard, hd]; rfl

theorem pollKeyboard_ready_mem {s : State} (hd : drawKeyAvailable s = true) :
    (pollKeyboard s).mem =
      Memory.setCell (Memory.setCell s.mem Config.kbsrAddr Config.kbsrReady) Config.kbdrAddr (zext8 (nextByte s)) := by
  rw [pollKeyboard_ready hd]

theorem pollKeyboard_idle_mem {s : State} (hd : drawKeyAvailable s = false) :
    (pollKeyboard s).mem = Memory.setCell s.mem Config.kbsrAddr 0 := by
  rw [pollKeyboard_idle hd]

/-- A poll is ready or idle, by its draw alone. -/
theorem poll_ready_or_idle (s : State) : drawKeyAvailable s = true ∨ drawKeyAvailable s = false := by
  cases drawKeyAvailable s
  · exact .inr rfl
  · exact .inl rfl

@[simp] theorem pollKeyboard_regs (s : State) : (pollKeyboard s).regs = s.regs := by
  unfold pollKeyboard; split <;> rfl
@[simp] theorem pollKeyboard_reg (s : State) (r : Reg) : (pollKeyboard s).reg r = s.reg r :=
  congrArg (fun f => Regs.get f r) (pollKeyboard_regs s)
@[simp] theorem pollKeyboard_pc (s : State) : (pollKeyboard s).pc = s.pc := by
  unfold pollKeyboard; split <;> rfl
@[simp] theorem pollKeyboard_cond (s : State) : (pollKeyboard s).cond = s.cond := by
  unfold pollKeyboard; split <;> rfl
@[simp] theorem pollKeyboard_run (s : State) : (pollKeyboard s).run = s.run := by
  unfold pollKeyboard; split <;> rfl
@[simp] theorem pollKeyboard_fault (s : State) : (pollKeyboard s).fault = s.fault := by
  unfold pollKeyboard; split <;> rfl
@[simp] theorem pollKeyboard_pending (s : State) : (pollKeyboard s).pending = s.pending := by
  unfold pollKeyboard; split <;> rfl
@[simp] theorem pollKeyboard_output (s : State) : (pollKeyboard s).con.output = s.con.output := by
  unfold pollKeyboard; split <;> rfl
@[simp] theorem pollKeyboard_polls (s : State) : (pollKeyboard s).con.polls = s.con.polls + 1 := by
  unfold pollKeyboard; split <;> rfl

@[simp] theorem pollKeyboard_avail (s : State) : (pollKeyboard s).con.avail = s.con.avail.tail := by
  unfold pollKeyboard; split <;> rfl

/-- What a poll leaves in KBSR and of the input: `KBSR_READY` and one byte fewer, or 0 and all (20_memory.md R43). -/
theorem pollKeyboard_kbsr (s : State) :
    (drawKeyAvailable s = true ∧ (pollKeyboard s).cell Config.kbsrAddr = Config.kbsrReady ∧
        (pollKeyboard s).con.input = s.con.input.tail) ∨
      (drawKeyAvailable s = false ∧ (pollKeyboard s).cell Config.kbsrAddr = 0 ∧
        (pollKeyboard s).con.input = s.con.input) := by
  rcases poll_ready_or_idle s with hd | hd
  · refine .inl ⟨hd, ?_, by rw [pollKeyboard_ready hd]⟩
    rw [State.cell_eq, pollKeyboard_ready_mem hd, Memory.cell_setCell_ne _ _ kbdrAddr_ne_kbsrAddr.symm,
      Memory.cell_setCell_same]
  · refine .inr ⟨hd, ?_, by rw [pollKeyboard_idle hd]⟩
    rw [State.cell_eq, pollKeyboard_idle_mem hd, Memory.cell_setCell_same]

/-- What a poll leaves in KBDR: the next byte if it is ready, else what was there (20_memory.md R43). -/
theorem pollKeyboard_kbdr (s : State) :
    (pollKeyboard s).cell Config.kbdrAddr =
      if drawKeyAvailable s then zext8 (nextByte s) else s.cell Config.kbdrAddr := by
  rcases poll_ready_or_idle s with hd | hd
  · rw [if_pos hd, State.cell_eq, pollKeyboard_ready_mem hd, Memory.cell_setCell_same]
  · rw [if_neg (by rw [hd]; decide), State.cell_eq, pollKeyboard_idle_mem hd,
      Memory.cell_setCell_ne _ _ kbdrAddr_ne_kbsrAddr, State.cell_eq]

/-- A poll takes at most one byte, from the front. -/
theorem pollKeyboard_input (s : State) :
    ∃ taken, s.con.input = taken ++ (pollKeyboard s).con.input ∧ taken.length ≤ 1 := by
  rcases pollKeyboard_kbsr s with ⟨_, _, h⟩ | ⟨_, _, h⟩ <;> rw [h]
  · cases s.con.input with
    | nil => exact ⟨[], rfl, by decide⟩
    | cons b rest => exact ⟨[b], rfl, Nat.le_refl 1⟩
  · exact ⟨[], rfl, by decide⟩

/-- A poll leaves every cell but KBSR and KBDR alone. -/
theorem pollKeyboard_cell_ne (s : State) {a : Word} (h : a ≠ Config.kbsrAddr) (h' : a ≠ Config.kbdrAddr) :
    (pollKeyboard s).cell a = s.cell a := by
  rcases poll_ready_or_idle s with hd | hd
  · rw [State.cell_eq, pollKeyboard_ready_mem hd, Memory.cell_setCell_ne _ _ h', Memory.cell_setCell_ne _ _ h,
      State.cell_eq]
  · rw [State.cell_eq, pollKeyboard_idle_mem hd, Memory.cell_setCell_ne _ _ h, State.cell_eq]

theorem wf_pollKeyboard {s : State} (h : Memory.wf s.mem) : Memory.wf (pollKeyboard s).mem := by
  rcases poll_ready_or_idle s with hd | hd
  · rw [pollKeyboard_ready_mem hd]; exact Memory.wf_setCell (Memory.wf_setCell h _ _) _ _
  · rw [pollKeyboard_idle_mem hd]; exact Memory.wf_setCell h _ _

/-! ## `MemRead` -/

theorem memRead_plain {a : Word} (h : a ≠ Config.kbsrAddr) (s : State) : memRead a s = (s.cell a, s) := if_neg h

theorem memRead_kbsr (s : State) :
    memRead Config.kbsrAddr s = ((pollKeyboard s).cell Config.kbsrAddr, pollKeyboard s) := if_pos rfl

/-- The state after a `MemRead` is the state before it, or the state after a poll. -/
theorem memRead_state (a : Word) (s : State) :
    (a ≠ Config.kbsrAddr ∧ (memRead a s).2 = s) ∨ (a = Config.kbsrAddr ∧ (memRead a s).2 = pollKeyboard s) := by
  by_cases h : a = Config.kbsrAddr
  · subst h; exact .inr ⟨rfl, by rw [memRead_kbsr]⟩
  · exact .inl ⟨h, by rw [memRead_plain h]⟩

/-- The value a `MemRead` returns is what the cell holds after it. -/
theorem memRead_value (a : Word) (s : State) : (memRead a s).1 = (memRead a s).2.cell a := by
  unfold memRead; split
  · rename_i h; rw [h]
  · rfl

@[simp] theorem memRead_regs (a : Word) (s : State) : (memRead a s).2.regs = s.regs := by
  unfold memRead; split <;> simp
@[simp] theorem memRead_reg (a : Word) (s : State) (r : Reg) : (memRead a s).2.reg r = s.reg r := by
  unfold memRead; split <;> simp
@[simp] theorem memRead_pc (a : Word) (s : State) : (memRead a s).2.pc = s.pc := by
  unfold memRead; split <;> simp
@[simp] theorem memRead_cond (a : Word) (s : State) : (memRead a s).2.cond = s.cond := by
  unfold memRead; split <;> simp
@[simp] theorem memRead_run (a : Word) (s : State) : (memRead a s).2.run = s.run := by
  unfold memRead; split <;> simp
@[simp] theorem memRead_fault (a : Word) (s : State) : (memRead a s).2.fault = s.fault := by
  unfold memRead; split <;> simp
@[simp] theorem memRead_pending (a : Word) (s : State) : (memRead a s).2.pending = s.pending := by
  unfold memRead; split <;> simp
@[simp] theorem memRead_output (a : Word) (s : State) : (memRead a s).2.con.output = s.con.output := by
  unfold memRead; split <;> simp

theorem wf_memRead {s : State} (h : Memory.wf s.mem) (a : Word) : Memory.wf (memRead a s).2.mem := by
  rcases memRead_state a s with ⟨_, e⟩ | ⟨_, e⟩ <;> rw [e]
  · exact h
  · exact wf_pollKeyboard h

end Sys2Proof.Machine
end

