-- ==== Sys2Proof/Laws/Loader.lean ====
section
/-! SUPPORT. The image loader keeps the canonical form of memory, and a reset that starts has loaded every image
(70_reset_and_hazards.md R170 to R174). -/

namespace Sys2Proof.Machine

/-- The words of one image keep the canonical form. -/
theorem wf_loadWords (bytes : List Byte) (a : Nat) (m : Memory) (h : Memory.wf m) : Memory.wf (loadWords bytes a m) := by
  fun_induction loadWords bytes a m with
  | case1 m _ _ _ a _ ih => exact ih (Memory.wf_setCell h _ _)
  | case2 => exact h
  | case3 => exact h

/-- One image keeps the canonical form. -/
theorem wf_loadImage {m m' : Memory} {img : Image} (h : loadImage m img = some m') (hw : Memory.wf m) :
    Memory.wf m' := by
  unfold loadImage at h
  split at h
  · cases h; exact wf_loadWords _ _ _ hw
  · cases h

/-- Loading one image more. -/
theorem loadImages_cons {img : Image} {images : List Image} {m m' : Memory} (h : loadImages (img :: images) m = some m') :
    ∃ u, loadImage m img = some u ∧ loadImages images u = some m' := by
  unfold loadImages at h
  split at h
  · exact ⟨_, ‹_›, h⟩
  · cases h

/-- The images of a reset keep the canonical form. -/
theorem wf_loadImages {images : List Image} {m m' : Memory} (h : loadImages images m = some m') (hw : Memory.wf m) :
    Memory.wf m' := by
  induction images generalizing m with
  | nil => cases h; exact hw
  | cons img images ih =>
    obtain ⟨u, h1, h2⟩ := loadImages_cons h
    exact ih h2 (wf_loadImage h1 hw)

/-- A reset that starts has loaded its images into the reset state, which is otherwise as it was. -/
theorem resetWith_started {images : List Image} {t : State} (h : resetWith images = .started t) :
    ∃ m, loadImages images [] = some m ∧ t = { State.reset with mem := m } := by
  unfold resetWith at h
  split at h
  · cases h
  · split at h
    · cases h; exact ⟨_, ‹_›, rfl⟩
    · cases h

end Sys2Proof.Machine
end

