-- ==== Sys2Proof/Laws/PerInstr.lean ====
section
/-! SUPPORT. One lemma per instruction: the opcode field of its word, bits 15:12, is the opcode 30_encoding.md R62 gives
it. -/

namespace Sys2Proof.Laws.OpcodeField

/-- Bits 15:12 of the instruction's word are its opcode. -/
def Statement (i : Instr) : Prop := (encode i).extractLsb' 12 4 = i.opcode

theorem addReg (dr sr1 sr2 : Reg) : Statement (.addReg dr sr1 sr2) := encode_opcode _
theorem addImm (dr sr1 : Reg) (imm5 : BitVec 5) : Statement (.addImm dr sr1 imm5) := encode_opcode _
theorem andReg (dr sr1 sr2 : Reg) : Statement (.andReg dr sr1 sr2) := encode_opcode _
theorem andImm (dr sr1 : Reg) (imm5 : BitVec 5) : Statement (.andImm dr sr1 imm5) := encode_opcode _
theorem not (dr sr : Reg) : Statement (.not dr sr) := encode_opcode _
theorem br (n z p : Bool) (off9 : BitVec 9) : Statement (.br n z p off9) := encode_opcode _
theorem jmp (base : Reg) : Statement (.jmp base) := encode_opcode _
theorem jsr (off11 : BitVec 11) : Statement (.jsr off11) := encode_opcode _
theorem jsrr (base : Reg) : Statement (.jsrr base) := encode_opcode _
theorem ld (dr : Reg) (off9 : BitVec 9) : Statement (.ld dr off9) := encode_opcode _
theorem ldi (dr : Reg) (off9 : BitVec 9) : Statement (.ldi dr off9) := encode_opcode _
theorem ldr (dr base : Reg) (off6 : BitVec 6) : Statement (.ldr dr base off6) := encode_opcode _
theorem lea (dr : Reg) (off9 : BitVec 9) : Statement (.lea dr off9) := encode_opcode _
theorem st (sr : Reg) (off9 : BitVec 9) : Statement (.st sr off9) := encode_opcode _
theorem sti (sr : Reg) (off9 : BitVec 9) : Statement (.sti sr off9) := encode_opcode _
theorem str (sr base : Reg) (off6 : BitVec 6) : Statement (.str sr base off6) := encode_opcode _
theorem getc : Statement (.getc) := encode_opcode _
theorem out : Statement (.out) := encode_opcode _
theorem puts : Statement (.puts) := encode_opcode _
theorem inChar : Statement (.inChar) := encode_opcode _
theorem putsp : Statement (.putsp) := encode_opcode _
theorem halt : Statement (.halt) := encode_opcode _
theorem trap (ignored : BitVec 4) (vect : BitVec 8) : Statement (.trap ignored vect) := encode_opcode _
theorem rti (ignored : BitVec 12) : Statement (.rti ignored) := encode_opcode _
theorem res (ignored : BitVec 12) : Statement (.res ignored) := encode_opcode _

end Sys2Proof.Laws.OpcodeField
end

