-- ==== Sys2Proof/Laws/StringWalk.lean ====
section
/-! SUPPORT. The string walk of PUTS and PUTSP (44_trap.md R123, R125): what its reads and writes keep, it keeps; and a pass
leaves the core in the routine or at its end. -/

namespace Sys2Proof.Machine

/-- One read more of the walk. -/
theorem stringWalk_succ (chars : Word → List Byte) (n : Nat) (a : Word) (s : State) :
    stringWalk chars (n + 1) a s =
      if (memRead a s).1 = 0 then .ended (memRead a s).2
      else stringWalk chars n (a + 1) (writeBytes (chars (memRead a s).1) (memRead a s).2) := rfl

/-- The state a walk has come to. -/
def Walk.state : Walk → State
  | .ended t => t
  | .goesOn t => t

/-- What a `MemRead` and a write of bytes keep, the walk keeps. -/
theorem stringWalk_keeps {chars : Word → List Byte} (P : State → Prop) (hr : ∀ a s, P s → P (memRead a s).2)
    (hw : ∀ bs s, P s → P (writeBytes bs s)) (n : Nat) (a : Word) (s : State) (hs : P s) :
    P (stringWalk chars n a s).state := by
  induction n generalizing a s with
  | zero => exact hs
  | succ n ih =>
    rw [stringWalk_succ]
    split
    · exact hr a s hs
    · exact ih _ _ (hw _ _ (hr a s hs))

/-- Once the walk has ended, more reads give the same. -/
theorem stringWalk_more {chars : Word → List Byte} {n : Nat} {a : Word} {s t : State}
    (h : stringWalk chars n a s = .ended t) (m : Nat) (hm : n ≤ m) : stringWalk chars m a s = .ended t := by
  induction n generalizing a s m with
  | zero => cases h
  | succ n ih =>
    obtain ⟨k, rfl⟩ : ∃ k, m = k + 1 := ⟨m - 1, by omega⟩
    rw [stringWalk_succ] at h ⊢
    split
    · rw [if_pos ‹_›] at h; exact h
    · rw [if_neg ‹_›] at h; exact ih h k (by omega)

/-- A walk of `m + n` reads is one of `m` reads and, if that goes on, one of `n` from where it is. -/
theorem stringWalk_add {chars : Word → List Byte} {m : Nat} {a : Word} {s t : State}
    (h : stringWalk chars m a s = .goesOn t) (n : Nat) :
    stringWalk chars (m + n) a s = stringWalk chars n (a + BitVec.ofNat 16 m) t := by
  induction m generalizing a s with
  | zero => cases h; simp
  | succ m ih =>
    rw [stringWalk_succ] at h
    split at h
    · cases h
    · rw [Nat.succ_add, stringWalk_succ, if_neg ‹_›, ih h]
      congr 1
      rw [BitVec.add_assoc]
      congr 1
      rw [Nat.add_comm, BitVec.ofNat_add]; rfl

/-- What a pass of PUTS or PUTSP leaves: the end of the walk, flushed, or the routine still going on. -/
theorem putString_cases (r : StringRoutine) (s : State) :
    (∃ t, stringWalk (stringChars r) passReads (s.reg .r0) s = .ended t ∧
        putString r s = flush { t with pending := none }) ∨
      ∃ t, stringWalk (stringChars r) passReads (s.reg .r0) s = .goesOn t ∧
        putString r s = { t with pending := some (.walking r) } := by
  cases h : stringWalk (stringChars r) passReads (s.reg .r0) s with
  | ended t => exact .inl ⟨t, rfl, by unfold putString; rw [h]⟩
  | goesOn t => exact .inr ⟨t, rfl, by unfold putString; rw [h]⟩

end Sys2Proof.Machine
end

