-- ==== Sys2Proof/Laws/Ports.lean ====
section
/-! SUPPORT. What the console operations can do, said once each: a run of reads and writes at the ports, `putString`,
`readByteThen`, and the general TRAP row. -/

namespace Sys2Proof.Machine

/-- `t` comes from `s` by reads of memory and writes at the console alone: registers, pc, COND, run state, fault record and
unfinished routine are the same; a poll may have written KBSR and KBDR and taken input from the front; output was only added. -/
structure PortsOnly (s t : State) : Prop where
  regs : t.regs = s.regs
  pc : t.pc = s.pc
  cond : t.cond = s.cond
  run : t.run = s.run
  fault : t.fault = s.fault
  pending : t.pending = s.pending
  byteAt : ∀ k, k ≠ 2 * Config.kbsrAddr.toNat → k ≠ 2 * Config.kbsrAddr.toNat + 1 → k ≠ 2 * Config.kbdrAddr.toNat →
    k ≠ 2 * Config.kbdrAddr.toNat + 1 → Memory.byteAt t.mem k = Memory.byteAt s.mem k
  polls : s.con.polls ≤ t.con.polls
  quiet : t.con.polls = s.con.polls → t.mem = s.mem
  wf : Memory.wf s.mem → Memory.wf t.mem
  input : ∃ taken, s.con.input = taken ++ t.con.input
  output : ∃ written, t.con.output = s.con.output ++ written

theorem PortsOnly.refl (s : State) : PortsOnly s s :=
  ⟨rfl, rfl, rfl, rfl, rfl, rfl, fun _ _ _ _ _ => rfl, Nat.le_refl _, fun _ => rfl, id, ⟨[], rfl⟩, ⟨[], (List.append_nil _).symm⟩⟩

theorem PortsOnly.reg {s t : State} (h : PortsOnly s t) (r : Reg) : t.reg r = s.reg r :=
  congrArg (fun f => Regs.get f r) h.regs

/-- A `MemRead` more. -/
theorem PortsOnly.memRead {s t : State} (h : PortsOnly s t) (a : Word) : PortsOnly s (memRead a t).2 := by
  rcases memRead_state a t with ⟨_, e⟩ | ⟨_, e⟩
  · rw [e]; exact h
  · rw [e]
    obtain ⟨taken, hi⟩ := h.input
    have hp : (pollKeyboard t).con.polls = t.con.polls + 1 := pollKeyboard_polls t
    have hle := h.polls
    refine ⟨by simp [h.regs], by simp [h.pc], by simp [h.cond], by simp [h.run], by simp [h.fault], by simp [h.pending],
      fun k h1 h2 h3 h4 => ?_, by omega, fun e => by omega, fun hw => wf_pollKeyboard (h.wf hw), ?_,
      by simpa using h.output⟩
    · rw [← h.byteAt k h1 h2 h3 h4]
      rcases poll_ready_or_idle t with hd | hd
      · rw [pollKeyboard_ready_mem hd]; simp only [Memory.byteAt_setCell, if_neg h1, if_neg h2, if_neg h3, if_neg h4]
      · rw [pollKeyboard_idle_mem hd]; simp only [Memory.byteAt_setCell, if_neg h1, if_neg h2]
    · obtain ⟨more, hm, _⟩ := pollKeyboard_input t
      exact ⟨taken ++ more, by rw [List.append_assoc, ← hm]; exact hi⟩

/-- Output more. -/
theorem PortsOnly.emit {s t : State} (h : PortsOnly s t) (es : List OutEvent) : PortsOnly s (t.emit es) := by
  obtain ⟨written, ho⟩ := h.output
  exact ⟨h.regs, h.pc, h.cond, h.run, h.fault, h.pending, h.byteAt, h.polls, h.quiet, h.wf, h.input,
    ⟨written ++ es, by rw [← List.append_assoc, ← ho]; rfl⟩⟩

/-- The walk reaches its state through the ports alone. -/
theorem stringWalk_ports (chars : Word → List Byte) (n : Nat) (a : Word) (s : State) :
    PortsOnly s (stringWalk chars n a s).state :=
  stringWalk_keeps (PortsOnly s) (fun a _ hp => hp.memRead a) (fun bs _ hp => hp.emit (bs.map .byte)) n a s
    (PortsOnly.refl s)

/-- `putString` reaches its state through the ports alone, but for the unfinished routine, which is none or itself. -/
theorem putString_ports (r : StringRoutine) (s : State) :
    ∃ t, PortsOnly s t ∧
      (putString r s = { t with pending := none } ∨ putString r s = { t with pending := some (.walking r) }) := by
  have hp := stringWalk_ports (stringChars r) passReads (s.reg .r0) s
  rcases putString_cases r s with ⟨t, h, e⟩ | ⟨t, h, e⟩ <;> rw [h] at hp
  · exact ⟨t.emit [.flush], hp.emit [.flush], .inl e⟩
  · exact ⟨t, hp, .inr e⟩

/-- `readByteThen` waits if no byte is there, and otherwise takes the first byte into R0 and sets the flag, having added to
the output at most. -/
theorem readByteThen_cases (p : WaitPoint) (s : State) :
    (s.con.input = [] ∧ readByteThen p s = { s with pending := some (.reading p) }) ∨
      ∃ b rest echo, s.con.input = b :: rest ∧ readByteThen p s =
        ({ s with
            pending := none
            con := { s.con with input := rest, output := s.con.output ++ echo } } : State).writeResult .r0 (zext8 b) := by
  unfold readByteThen
  split
  · rename_i b rest e
    cases p
    · exact .inr ⟨b, rest, [], e, by simp [finishRead]⟩
    · exact .inr ⟨b, rest, [.byte b, .flush], e, by
        simp [finishRead, State.writeResult, flush, writeBytes, State.emit, State.setReg, State.setCond]⟩
  · exact .inl ⟨‹_›, rfl⟩

/-- The general TRAP row does what the row of its vector does, or, for an unknown vector, what R127 says. -/
theorem execTrap_cases (ign : BitVec 4) (v : BitVec 8) (s : State) :
    (v = 0x20 ∧ execTrap ign v s = execGetc s) ∨ (v = 0x21 ∧ execTrap ign v s = execOut s) ∨
    (v = 0x22 ∧ execTrap ign v s = execPuts s) ∨ (v = 0x23 ∧ execTrap ign v s = execIn s) ∨
    (v = 0x24 ∧ execTrap ign v s = execPutsp s) ∨ (v = 0x25 ∧ execTrap ign v s = execHalt s) ∨
    ((v.toNat < 0x20 ∨ 0x25 < v.toNat) ∧
      execTrap ign v s = .next (unknownTrap (encode (.trap ign v)) (linkReturn s))) := by
  unfold execTrap
  split
  case h_1 e => exact .inl ⟨BitVec.eq_of_toNat_eq e, rfl⟩
  case h_2 e => exact .inr (.inl ⟨BitVec.eq_of_toNat_eq e, rfl⟩)
  case h_3 e => exact .inr (.inr (.inl ⟨BitVec.eq_of_toNat_eq e, rfl⟩))
  case h_4 e => exact .inr (.inr (.inr (.inl ⟨BitVec.eq_of_toNat_eq e, rfl⟩)))
  case h_5 e => exact .inr (.inr (.inr (.inr (.inl ⟨BitVec.eq_of_toNat_eq e, rfl⟩))))
  case h_6 e => exact .inr (.inr (.inr (.inr (.inr (.inl ⟨BitVec.eq_of_toNat_eq e, rfl⟩)))))
  case h_7 _ h0 h1 h2 h3 h4 h5 =>
    refine .inr (.inr (.inr (.inr (.inr (.inr ⟨?_, rfl⟩)))))
    by_contra hn
    have hv : v.toNat = 0x20 ∨ v.toNat = 0x21 ∨ v.toNat = 0x22 ∨ v.toNat = 0x23 ∨ v.toNat = 0x24 ∨ v.toNat = 0x25 := by
      omega
    rcases hv with e | e | e | e | e | e
    exacts [h0 e, h1 e, h2 e, h3 e, h4 e, h5 e]

/-- The fault an unknown vector raises, or nothing, by the parameter (44_trap.md R127). -/
theorem unknownTrap_cases (w : Word) (s : State) :
    (Config.unknownTrapFaults = true ∧ unknownTrap w s = raiseDecodeFault .trapVec w s) ∨
      (Config.unknownTrapFaults = false ∧ unknownTrap w s = s) := by
  unfold unknownTrap
  cases h : Config.unknownTrapFaults
  · exact .inr ⟨rfl, rfl⟩
  · exact .inl ⟨rfl, rfl⟩

end Sys2Proof.Machine
end

