-- ==== Sys2Proof/Laws/Step.lean ====
section
/-! SUPPORT. What a step, a fetch and a load can do, said once each (30_encoding.md R72, 42_load.md). -/

namespace Sys2Proof.Machine

/-! ## The fetch -/

@[simp] theorem fetch_pc (s : State) : (fetch s).2.pc = s.pc + 1 := rfl
@[simp] theorem fetch_reg (s : State) (r : Reg) : (fetch s).2.reg r = s.reg r := memRead_reg s.pc s r
@[simp] theorem fetch_cond (s : State) : (fetch s).2.cond = s.cond := memRead_cond s.pc s
@[simp] theorem fetch_run (s : State) : (fetch s).2.run = s.run := memRead_run s.pc s
@[simp] theorem fetch_fault (s : State) : (fetch s).2.fault = s.fault := memRead_fault s.pc s
@[simp] theorem fetch_pending (s : State) : (fetch s).2.pending = s.pending := memRead_pending s.pc s
@[simp] theorem fetch_mem (s : State) : (fetch s).2.mem = (memRead s.pc s).2.mem := rfl
@[simp] theorem fetch_con (s : State) : (fetch s).2.con = (memRead s.pc s).2.con := rfl

/-- A step of an ended run answers the same state; a core that is still inside a routine goes on with it; any other core
runs the instruction it fetches. -/
theorem step_cases (s : State) :
    (s.run ≠ .running ∧ step s = .next s) ∨
      (∃ p, s.run = .running ∧ s.pending = some p ∧ step s = .next (resume p s)) ∨
      (s.run = .running ∧ s.pending = none ∧ step s = exec (decode (fetch s).1) (fetch s).2) := by
  cases hr : s.run
  · cases hw : s.pending with
    | none => exact .inr (.inr ⟨rfl, rfl, by unfold step beginStep; rw [hr]; simp only [hw]⟩)
    | some p => exact .inr (.inl ⟨p, rfl, rfl, by unfold step beginStep; rw [hr]; simp only [hw]⟩)
  · exact .inl ⟨nofun, by unfold step beginStep; rw [hr]⟩
  · exact .inl ⟨nofun, by unfold step beginStep; rw [hr]⟩

/-! ## `loadInto` -/

@[simp] theorem loadInto_reg_same (dr : Reg) (ea : Word) (s : State) : (loadInto dr ea s).reg dr = (memRead ea s).1 :=
  State.writeResult_reg_same _ _ _
theorem loadInto_reg_ne {dr q : Reg} (ea : Word) (s : State) (h : q ≠ dr) : (loadInto dr ea s).reg q = s.reg q :=
  (State.writeResult_reg_ne _ _ h).trans (memRead_reg ea s q)
@[simp] theorem loadInto_cond (dr : Reg) (ea : Word) (s : State) :
    (loadInto dr ea s).cond = flagOf (memRead ea s).1 := rfl
@[simp] theorem loadInto_pc (dr : Reg) (ea : Word) (s : State) : (loadInto dr ea s).pc = s.pc := memRead_pc ea s
@[simp] theorem loadInto_run (dr : Reg) (ea : Word) (s : State) : (loadInto dr ea s).run = s.run := memRead_run ea s
@[simp] theorem loadInto_fault (dr : Reg) (ea : Word) (s : State) : (loadInto dr ea s).fault = s.fault :=
  memRead_fault ea s
@[simp] theorem loadInto_pending (dr : Reg) (ea : Word) (s : State) : (loadInto dr ea s).pending = s.pending := memRead_pending ea s
@[simp] theorem loadInto_mem (dr : Reg) (ea : Word) (s : State) : (loadInto dr ea s).mem = (memRead ea s).2.mem := rfl
@[simp] theorem loadInto_con (dr : Reg) (ea : Word) (s : State) : (loadInto dr ea s).con = (memRead ea s).2.con := rfl

end Sys2Proof.Machine
end

