-- ==== Sys2Proof/Tests/Slice0.lean ====
section
/-! SUPPORT. Tests: words decoded by hand from the spec's encodings, single steps whose results stand in
spec/95_test_vectors.md (the vector's number is in the test's name), and, for every obligation with hypotheses, a state and
operands that meet them. -/

namespace Sys2Proof.Tests

open Sys2Proof.Machine

/-! ## Helpers -/

/-- The reset state with a word at the entry point. -/
def start (w : Word) : State := State.reset.setCell 0x3000 w

/-- Some registers given values. -/
def withRegs (rs : List (Reg × Word)) (s : State) : State := rs.foldl (fun t p => t.setReg p.1 p.2) s

/-- Some cells given values. -/
def withCells (cs : List (Word × Word)) (s : State) : State := cs.foldl (fun t p => t.setCell p.1 p.2) s

/-- The console given input and settled answers of `KeyAvailable()`. -/
def withConsole (input : List Byte) (avail : List Bool) (s : State) : State := { s with con := ⟨input, avail, 0, []⟩ }

/-- What one step leaves, seen through `f`. -/
def after {α : Type} (s : State) (f : State → α) : Option α :=
  match step s with
  | .next t => some (f t)
  | _ => none

/-- What a reset with images leaves, seen through `f`. -/
def loaded {α : Type} (images : List Image) (f : State → α) : Option α :=
  match resetWith images with
  | .started t => some (f t)
  | .loadError => none

/-! ## Well-formedness -/

/-- The one check refuses the general TRAP row with a service vector, at both ends, and accepts its neighbours. -/
theorem test_wf_service_vectors :
    (Instr.trap 0 0x20).wf = false ∧ (Instr.trap 0xF 0x25).wf = false ∧
    (Instr.trap 0 0x1F).wf = true ∧ (Instr.trap 0 0x26).wf = true := by decide

/-! ## Decoding: words written out from 30_encoding.md R64 -/

/-- ADD: 0001 010 000 0 00 001; 0001 000 001 1 11101. AND: 0101 011 001 0 00 010; 0101 100 101 1 01111.
NOT: 1001 001 001 111111. -/
theorem test_decode_operate :
    decode 0b0001010000000001 = .addReg .r2 .r0 .r1 ∧ decode 0b0001000001111101 = .addImm .r0 .r1 29 ∧
    decode 0b0101011001000010 = .andReg .r3 .r1 .r2 ∧ decode 0b0101100101101111 = .andImm .r4 .r5 15 ∧
    decode 0b1001001001111111 = .not .r1 .r1 := by decide

/-- BR: 0000 010 111111110. JMP: 1100 000 010 000000. JSR: 0100 1 00000010000. JSRR: 0100 0 00 011 000000. -/
theorem test_decode_control :
    decode 0b0000010111111110 = .br false true false 510 ∧ decode 0b0000100000000101 = .br true false false 5 ∧
    decode 0b1100000010000000 = .jmp .r2 ∧ decode 0b0100100000010000 = .jsr 16 ∧
    decode 0b0100000011000000 = .jsrr .r3 := by decide

/-- LD: 0010 010 000000101. LDI: 1010 011 000000010. LDR: 0110 100 010 111111. LEA: 1110 001 111111101. -/
theorem test_decode_load :
    decode 0b0010010000000101 = .ld .r2 5 ∧ decode 0b1010011000000010 = .ldi .r3 2 ∧
    decode 0b0110100010111111 = .ldr .r4 .r2 63 ∧ decode 0b1110001111111101 = .lea .r1 509 := by decide

/-- ST: 0011 011 000000100. STI: 1011 001 000000001. STR: 0111 101 110 011111. -/
theorem test_decode_store :
    decode 0b0011011000000100 = .st .r3 4 ∧ decode 0b1011001000000001 = .sti .r1 1 ∧
    decode 0b0111101110011111 = .str .r5 .r6 31 := by decide

/-- TRAP: 1111 xxxx and the vector; bits 11:8 do not matter for the service vectors. -/
theorem test_decode_trap :
    decode 0b1111000000100000 = .getc ∧ decode 0b1111000000100001 = .out ∧ decode 0b1111000000100010 = .puts ∧
    decode 0b1111000000100011 = .inChar ∧ decode 0b1111000000100100 = .putsp ∧ decode 0b1111000000100101 = .halt ∧
    decode 0b1111111100100101 = .halt ∧ decode 0b1111101000110000 = .trap 10 0x30 := by decide

/-- RTI: 1000 and RES: 1101, the other bits free. -/
theorem test_decode_unimplemented :
    decode 0b1000000000000000 = .rti 0 ∧ decode 0b1101000100100011 = .res 0x123 := by decide

/-- The bits decoding ignores (R67): ADD's bits 4:3, NOT's 5:0, JMP's 11:9 and 5:0. -/
theorem test_decode_ignored_bits :
    decode 0x1419 = decode 0x1401 ∧ decode 0x94C0 = decode 0x94FF ∧ decode 0xCEBF = decode 0xC080 := by decide

theorem test_encode_words :
    encode (.addImm .r0 .r1 29) = 0x107D ∧ encode (.not .r1 .r1) = 0x927F ∧ encode (.jmp .r7) = 0xC1C0 ∧
    encode (.jsr 0x400) = 0x4C00 ∧ encode (.str .r5 .r6 31) = 0x7B9F ∧ encode .puts = 0xF022 := by decide

theorem test_table_word :
    decodeTableWord 16 0x107D = some (.addImm .r0 .r1 29) ∧
    after (State.reset.withFetchWord 16 0x1025) (fun t => (t.reg .r0, t.pc)) = some (5, 0x3001) := by decide

/-! ## Operands (95_test_vectors.md S1, S2) -/

theorem test_S1_sext :
    sext 0b10000#5 = 0xFFF0 ∧ sext 0b01111#5 = 0x000F ∧ sext 0b100000#6 = 0xFFE0 ∧ sext 0x100#9 = 0xFF00 ∧
    sext 0x0FF#9 = 0x00FF ∧ sext 0x400#11 = 0xFC00 ∧ sext 0x3FF#11 = 0x03FF := by decide

theorem test_S2_flags :
    flagOf 0 = .z ∧ flagOf 0x8000 = .n ∧ flagOf 1 = .p ∧ flagOf 0xFFFF = .n ∧ flagOf 0x7FFF = .p := by decide

/-! ## Operate (95_test_vectors.md 2.1) -/

theorem test_V1_add_overflow :
    after (withRegs [(.r0, 0x7FFF), (.r1, 1)] (start 0x1401)) (fun t => (t.reg .r2, t.cond)) =
      some (0x8000, .n) := by decide

theorem test_V3_add_same_register :
    after (withRegs [(.r3, 0x8000)] (start 0x16C3)) (fun t => (t.reg .r3, t.cond)) = some (0, .z) := by decide

theorem test_S4_add_negative_immediate :
    after (withRegs [(.r1, 5)] (start 0x107D)) (fun t => (t.reg .r0, t.cond)) = some (2, .p) := by decide

theorem test_V5_add_smallest_immediate :
    after (withRegs [(.r1, 0x10)] (start 0x1270)) (fun t => (t.reg .r1, t.cond)) = some (0, .z) := by decide

theorem test_V8_and :
    after (withRegs [(.r1, 0xFF00), (.r2, 0x0FF0)] (start 0x5642)) (fun t => (t.reg .r3, t.cond)) =
      some (0x0F00, .p) := by decide

theorem test_V9_and_immediate :
    after (withRegs [(.r2, 0x8001)] (start 0x54BF)) (fun t => (t.reg .r2, t.cond)) = some (0x8001, .n) := by decide

theorem test_V10_and_immediate :
    after (withRegs [(.r5, 0x1234)] (start 0x596F)) (fun t => (t.reg .r4, t.cond)) = some (4, .p) := by decide

theorem test_V11_not :
    after (start 0x927F) (fun t => (t.reg .r1, t.cond)) = some (0xFFFF, .n) := by decide

theorem test_V12_not :
    after (withRegs [(.r3, 0xFFFF)] (start 0x94FF)) (fun t => (t.reg .r2, t.cond)) = some (0, .z) := by decide

/-! ## Control (95_test_vectors.md 2.2) -/

theorem test_V14_branch_back : after (start 0x05FE) (fun t => t.pc) = some 0x2FFF := by decide

theorem test_V20_branch_wraps :
    after ((State.reset.setPc 0xFFFF).setCell 0xFFFF 0x0E01) (fun t => t.pc) = some 1 := by decide

theorem test_V21_jmp : after (withRegs [(.r2, 0x4000)] (start 0xC080)) (fun t => t.pc) = some 0x4000 := by decide

theorem test_V22_ret : after (withRegs [(.r7, 0x3456)] (start 0xC1C0)) (fun t => t.pc) = some 0x3456 := by decide

theorem test_V23_jsr :
    after ((start 0x4810).setCond .n) (fun t => (t.reg .r7, t.pc, t.cond)) = some (0x3001, 0x3011, .n) := by decide

theorem test_V24_jsr_back : after (start 0x4C00) (fun t => (t.reg .r7, t.pc)) = some (0x3001, 0x2C01) := by decide

theorem test_V25_jsrr :
    after (withRegs [(.r3, 0x5000)] (start 0x40C0)) (fun t => (t.reg .r7, t.pc)) = some (0x3001, 0x5000) := by decide

theorem test_V26_jsrr_r7_falls_through :
    after (withRegs [(.r7, 0x6000)] (start 0x41C0)) (fun t => (t.reg .r7, t.pc)) = some (0x3001, 0x3001) := by decide

/-! ## Loads (95_test_vectors.md 2.3) -/

theorem test_V27_ld :
    after (withCells [(0x3006, 0x8123)] (start 0x2405)) (fun t => (t.reg .r2, t.cond)) = some (0x8123, .n) := by decide

theorem test_V29_ldi :
    after (withCells [(0x3003, 0x4000), (0x4000, 7)] (start 0xA602)) (fun t => (t.reg .r3, t.cond)) =
      some (7, .p) := by decide

theorem test_V30_ldi_polls :
    after (withConsole [0x78] [true] (withCells [(0x3003, 0xFE00)] (start 0xA602)))
      (fun t => (t.reg .r3, t.cond, t.cell 0xFE00, t.cell 0xFE02)) = some (0x8000, .n, 0x8000, 0x78) := by decide

theorem test_V32_ldr_polls_not_ready :
    after (withConsole [] [false] (withCells [(0xFE00, 0x8000)] (withRegs [(.r1, 0xFE00)] (start 0x6240))))
      (fun t => (t.reg .r1, t.cond, t.cell 0xFE00)) = some (0, .z, 0) := by decide

theorem test_V33_ldr_of_kbdr :
    after (withCells [(0xFE02, 0x41)] (withRegs [(.r1, 0xFE02)] (start 0x6240)))
      (fun t => (t.reg .r1, t.cond, t.con.polls)) = some (0x41, .p, 0) := by decide

theorem test_V34_lea_back : after (start 0xE3FD) (fun t => (t.reg .r1, t.cond)) = some (0x2FFE, .p) := by decide

theorem test_V37_lea_sets_flags :
    after (((State.reset.setPc 0xFFFF).setCond .p).setCell 0xFFFF 0xE000) (fun t => (t.reg .r0, t.cond, t.pc)) =
      some (0, .z, 0) := by decide

/-! ## Stores (95_test_vectors.md 2.4) -/

theorem test_V38_st :
    after ((withRegs [(.r3, 0xABCD)] (start 0x3604)).setCond .n) (fun t => (t.cell 0x3005, t.cond)) =
      some (0xABCD, .n) := by decide

theorem test_V39_sti :
    after (withCells [(0x3002, 0x4000)] (withRegs [(.r1, 0x55)] (start 0xB201))) (fun t => t.cell 0x4000) =
      some 0x55 := by decide

theorem test_V40_sti_to_kbsr_does_not_poll :
    after (withCells [(0x3002, 0xFE00)] (withRegs [(.r1, 0x55)] (start 0xB201)))
      (fun t => (t.cell 0xFE00, t.con.polls)) = some (0x55, 0) := by decide

theorem test_V41_str :
    after (withRegs [(.r5, 0x0102), (.r6, 0x4000)] (start 0x7B9F)) (fun t => t.cell 0x401F) = some 0x0102 := by decide

theorem test_V42_str_wraps :
    after (withRegs [(.r2, 0x10)] (start 0x74A0)) (fun t => t.cell 0xFFF0) = some 0x10 := by decide

/-! ## TRAP (95_test_vectors.md 2.5) -/

theorem test_V44_getc :
    after (withConsole [0xC8] [] (start 0xF020)) (fun t => (t.reg .r0, t.cond, t.reg .r7, t.con.output)) =
      some (0x00C8, .p, 0x3001, []) := by decide

theorem test_getc_waits : after (start 0xF020) (fun t => (t.pending, t.reg .r7)) = some (some (.reading .getc), 0x3001) := by decide

theorem test_V45_out :
    after (withRegs [(.r0, 0x1241)] (start 0xF021)) (fun t => (outputBytes t.con.output, t.reg .r0)) =
      some ([0x41], 0x1241) := by decide

theorem test_V49_puts_wraps :
    after (withCells [(0xFFFF, 0x41), (0, 0x42)] (withRegs [(.r0, 0xFFFF)] (start 0xF022)))
      (fun t => outputBytes t.con.output) = some [0x41, 0x42] := by decide

theorem test_V50_puts_polls :
    after (withConsole [] [false] (withCells [(0xFDFF, 0x41)] (withRegs [(.r0, 0xFDFF)] (start 0xF022))))
      (fun t => (outputBytes t.con.output, t.con.polls)) = some ([0x41], 1) := by decide

theorem test_V53_in :
    after (withConsole [0x37] [] (start 0xF023)) (fun t => (t.reg .r0, t.cond, t.con.input)) =
      some (0x37, .p, []) := by decide

theorem test_V51_putsp_low_byte_first :
    after (withCells [(0x4000, 0x4100)] (withRegs [(.r0, 0x4000)] (start 0xF024)))
      (fun t => outputBytes t.con.output) = some [0x00, 0x41] := by decide

theorem test_V52_putsp :
    after (withCells [(0x4000, 0x6548), (0x4001, 0x006C)] (withRegs [(.r0, 0x4000)] (start 0xF024)))
      (fun t => outputBytes t.con.output) = some [0x48, 0x65, 0x6C] := by decide

theorem test_V55_halt_ignored_bits :
    after ((start 0xFF25).setCond .n) (fun t => (t.run, t.cond, t.reg .r7)) = some (.halted, .n, 0x3001) := by decide

theorem test_V56_unknown_vector (h : Config.unknownTrapFaults = false) :
    after (start 0xF030) (fun t => (t.run, t.reg .r7)) = some (.running, 0x3001) := by
  have e : step (start 0xF030) = .next (unknownTrap 0xF030 (linkReturn ((start 0xF030).setPc 0x3001))) := rfl
  unfold after
  rw [e]
  unfold unknownTrap
  rw [h]
  decide

theorem test_V57_unknown_vector_faults (h : Config.unknownTrapFaults = true) :
    after (start 0xF030) (fun t => (t.run, t.fault)) = some (.faulted, some ⟨.trapVec, 0x3000, 0xF030⟩) := by
  have e : step (start 0xF030) = .next (unknownTrap 0xF030 (linkReturn ((start 0xF030).setPc 0x3001))) := rfl
  unfold after
  rw [e]
  unfold unknownTrap
  rw [h]
  decide

/-! ## The decode fault and the fetch from KBSR (95_test_vectors.md 2.6) -/

theorem test_V59_rti :
    after ((State.reset.setPc 0x3004).setCell 0x3004 0x8000) (fun t => (t.run, t.fault, t.pc)) =
      some (.faulted, some ⟨.rti, 0x3004, 0x8000⟩, 0x3005) := by decide

theorem test_V60_res :
    after (start 0xD123) (fun t => (t.run, t.fault, t.pc)) =
      some (.faulted, some ⟨.res, 0x3000, 0xD123⟩, 0x3001) := by decide

theorem test_V63_fetch_from_kbsr :
    after (withConsole [0x7A] [true] (State.reset.setPc 0xFE00)) (fun t => (t.fault, t.cell 0xFE02, t.pc)) =
      some (some ⟨.rti, 0xFE00, 0x8000⟩, 0x7A, 0xFE01) := by decide

/-! ## Images (95_test_vectors.md 2.7) -/

theorem test_V64_image :
    loaded [some [0x30, 0x00, 0x12, 0x34, 0x56, 0x78]] (fun t => (t.cell 0x3000, t.cell 0x3001, t.pc)) =
      some (0x1234, 0x5678, 0x3000) := by decide

theorem test_V65_odd_byte_dropped :
    loaded [some [0x40, 0x00, 0xAA, 0xBB, 0xCC]] (fun t => (t.cell 0x4000, t.cell 0x4001)) =
      some (0xAABB, 0) := by decide

theorem test_V66_no_wrap :
    loaded [some [0xFF, 0xFF, 0x11, 0x11, 0x22, 0x22]] (fun t => (t.cell 0xFFFF, t.cell 0)) =
      some (0x1111, 0) := by decide

theorem test_V69_later_image_wins :
    loaded [some [0x30, 0x00, 0x00, 0x01, 0x00, 0x02], some [0x30, 0x01, 0x00, 0x09]]
      (fun t => (t.cell 0x3000, t.cell 0x3001)) = some (1, 9) := by decide

theorem test_V68_V70_V71_load_errors :
    resetWith [some [0x30]] = .loadError ∧ resetWith [some [0x30, 0x00, 0x00, 0x01], some [0x40]] = .loadError ∧
    resetWith [] = .loadError := by decide

/-! ## Witnesses: every obligation with hypotheses is about something -/

theorem witness_ResetLoadsImagesInOrder :
    (∃ t, resetWith [some [0x30, 0x00, 0x12, 0x34]] = .started t) ∧
    (∀ img ∈ ([some [0x30, 0x00], some [0xFF, 0xFF]] : List Image), ∃ stream, img = some stream ∧ 2 ≤ stream.length) ∧
    (∃ img ∈ ([some [0x30, 0x00], some [0x30]] : List Image), ∀ stream, img = some stream → stream.length < 2) ∧
    (∃ img ∈ ([none] : List Image), ∀ stream, img = some stream → stream.length < 2) := by
  refine ⟨⟨_, rfl⟩, ?_, ⟨some [0x30], by simp, ?_⟩, ⟨none, by simp, ?_⟩⟩
  · intro img h
    simp at h
    rcases h with rfl | rfl <;> exact ⟨_, rfl, by decide⟩
  · intro stream h; cases h; decide
  · intro stream h; cases h

theorem witness_NoImageIsLoadError_states :
    State.reset.run = .running ∧ (State.mk ⟨0, 0, 0, 0, 0, 0, 0, 0⟩ 0 .z .halted none [] none ⟨[], [], 0, []⟩).run = .halted ∧
    (raiseDecodeFault .res 0xD000 State.reset).run = .faulted := by decide

theorem witness_NoImageIsLoadError :
    ([some [0x30, 0x00]] : List Image) ≠ [] ∧
    ∀ img ∈ ([some [0x30, 0x00]] : List Image), ∃ stream, img = some stream ∧ 2 ≤ stream.length := by
  refine ⟨by simp, fun img h => ?_⟩
  simp at h
  exact ⟨_, h, by decide⟩

theorem witness_DecodeOfEncode : (Instr.trap 0xF 0x26).wf = true ∧ (Instr.not .r7 .r0).wf = true := by decide

theorem witness_FirstCoveringRowIsDecoded :
    ⟨"RES", 0xF000, 0xD000⟩ ∈ Certificates.rows ∧
    (⟨"RES", 0xF000, 0xD000⟩ : Certificates.Row).covers 0xDFFF = true ∧ "RES" ≠ "TRAP" := by decide

theorem witness_SignExtensionFormula :
    (0 < 1 ∧ 1 ≤ 16 ∧ (1#1).getLsbD 0 = true) ∧ (0 < 16 ∧ 16 ≤ 16 ∧ (0x7FFF#16).getLsbD 15 = false) := by decide

theorem witness_MemWriteIsPlainStore : (0xFE01 : Word) ≠ 0xFE00 := by decide

theorem witness_MemReadIsPlainButAtKbsr :
    (0xFDFF : Word) ≠ Config.kbsrAddr ∧ (0xFE01 : Word) ≠ Config.kbsrAddr ∧ (0xFE02 : Word) ≠ Config.kbsrAddr := by decide

theorem witness_KbsrReadPolls :
    drawKeyAvailable (withConsole [0x71] [true] State.reset) = true ∧
    (withConsole [0x71] [true] State.reset).con.input = 0x71 :: [] ∧
    drawKeyAvailable (withConsole [0x71] [false] State.reset) = false := by decide

/-- A ready poll with no byte delivered: ready all the same (00_scope.md R7). -/
theorem test_ready_poll_of_an_arriving_byte :
    (memRead Config.kbsrAddr (withConsole [] [true] State.reset)).1 = 0x8000 := by
  rw [memRead_kbsr]
  exact ((pollKeyboard_kbsr _).resolve_right (fun h => absurd h.1 (by decide))).2.1

theorem witness_PollTakesOneByteOrNone :
    (drawKeyAvailable (withConsole [] [true] State.reset) = true ∧ (withConsole [] [true] State.reset).con.input = []) ∧
    (drawKeyAvailable (withConsole [0x71] [true] State.reset) = true ∧
      (withConsole [0x71] [true] State.reset).con.input = 0x71 :: []) := by decide

theorem witness_CanonicalMemoryIsUnique :
    Memory.wf [(0, 1), (131071, 0xFF)] ∧
    ∀ a, Memory.cell [(0, 1), (131071, 0xFF)] a = Memory.cell [(0, 1), (131071, 0xFF)] a :=
  ⟨by decide, fun _ => rfl⟩

/-- A word that meets the hypotheses of each decoding clause of the operate instructions. -/
theorem witness_operate_words :
    ((0x1FDF : Word).extractLsb' 12 4 = 0x1 ∧ (0x1FDF : Word).getLsbD 5 = false) ∧
    ((0x1FFF : Word).extractLsb' 12 4 = 0x1 ∧ (0x1FFF : Word).getLsbD 5 = true) ∧
    ((0x5FDF : Word).extractLsb' 12 4 = 0x5 ∧ (0x5FDF : Word).getLsbD 5 = false) ∧
    ((0x5020 : Word).extractLsb' 12 4 = 0x5 ∧ (0x5020 : Word).getLsbD 5 = true) ∧
    (0x9000 : Word).extractLsb' 12 4 = 0x9 := by decide

/-- The same for control, loads, stores and the two opcodes that fault. -/
theorem witness_other_words :
    (0x0FFF : Word).extractLsb' 12 4 = 0x0 ∧ (0xCFFF : Word).extractLsb' 12 4 = 0xC ∧
    ((0x4800 : Word).extractLsb' 12 4 = 0x4 ∧ (0x4800 : Word).getLsbD 11 = true) ∧
    ((0x47FF : Word).extractLsb' 12 4 = 0x4 ∧ (0x47FF : Word).getLsbD 11 = false) ∧
    (0x2FFF : Word).extractLsb' 12 4 = 0x2 ∧ (0xA000 : Word).extractLsb' 12 4 = 0xA ∧
    (0x6FFF : Word).extractLsb' 12 4 = 0x6 ∧ (0xE000 : Word).extractLsb' 12 4 = 0xE ∧
    (0x3FFF : Word).extractLsb' 12 4 = 0x3 ∧ (0xB000 : Word).extractLsb' 12 4 = 0xB ∧
    (0x7FFF : Word).extractLsb' 12 4 = 0x7 ∧ (0x8FFF : Word).extractLsb' 12 4 = 0x8 ∧
    (0xD000 : Word).extractLsb' 12 4 = 0xD := by decide

/-- The same for the TRAP rows, the vectors at both edges of the service range among them. -/
theorem witness_trap_words :
    ((0xFF20 : Word).extractLsb' 12 4 = 0xF ∧ (0xFF20 : Word).extractLsb' 0 8 = 0x20) ∧
    ((0xF021 : Word).extractLsb' 12 4 = 0xF ∧ (0xF021 : Word).extractLsb' 0 8 = 0x21) ∧
    ((0xF022 : Word).extractLsb' 12 4 = 0xF ∧ (0xF022 : Word).extractLsb' 0 8 = 0x22) ∧
    ((0xF023 : Word).extractLsb' 12 4 = 0xF ∧ (0xF023 : Word).extractLsb' 0 8 = 0x23) ∧
    ((0xF024 : Word).extractLsb' 12 4 = 0xF ∧ (0xF024 : Word).extractLsb' 0 8 = 0x24) ∧
    ((0xFF25 : Word).extractLsb' 12 4 = 0xF ∧ (0xFF25 : Word).extractLsb' 0 8 = 0x25) ∧
    ((0xF01F : Word).extractLsb' 12 4 = 0xF ∧ ((0xF01F : Word).extractLsb' 0 8).toNat < 0x20) ∧
    ((0xF026 : Word).extractLsb' 12 4 = 0xF ∧ 0x25 < ((0xF026 : Word).extractLsb' 0 8).toNat) := by decide

theorem witness_BranchOnCondition :
    (true = true ∧ (State.reset.setCond .n).cond = .n) ∧ (true = true ∧ State.reset.cond = .z) ∧
    (true = true ∧ (State.reset.setCond .p).cond = .p) ∧
    ¬ ((false = true ∧ State.reset.cond = .n) ∨ (false = true ∧ State.reset.cond = .z) ∨
      (true = true ∧ State.reset.cond = .p)) := by decide

/-- An effective address beside KBSR, for LD and LDI's and STI's pointers, and LDI's data address. -/
theorem witness_loads_and_stores_off_kbsr :
    (State.reset.setPc 0xFE00).pc + (0x001 : BitVec 9).signExtend 16 ≠ Config.kbsrAddr ∧
    (State.reset.setPc 0xFE00).cell ((State.reset.setPc 0xFE00).pc + (0x001 : BitVec 9).signExtend 16) ≠ Config.kbsrAddr ∧
    (State.reset.setReg .r1 0xFE00).reg .r1 + (0x3F : BitVec 6).signExtend 16 ≠ Config.kbsrAddr := by decide

theorem witness_GetcReadsAByte :
    (withConsole [0xC8] [] State.reset).con.input = 0xC8 :: [] ∧ State.reset.con.input = [] := by decide

theorem witness_InPromptsReadsAndEchoes :
    (withConsole [0x37, 0x38] [] State.reset).con.input = 0x37 :: [0x38] ∧ State.reset.con.input = [] := by decide

/-- The string "Hi" whose first word lies in cell 0xFFFF and whose walk wraps. -/
theorem witness_PutsWritesTheString :
    let s := withCells [(0xFFFF, 0x48), (0, 0x69)] (withRegs [(.r0, 0xFFFF)] State.reset)
    let cs : List Word := [0x48, 0x69]
    (∀ i (h : i < cs.length), s.cell (s.reg .r0 + BitVec.ofNat 16 i) = cs[i] ∧ cs[i] ≠ 0 ∧
      s.reg .r0 + BitVec.ofNat 16 i ≠ 0xFE00) ∧
    s.cell (s.reg .r0 + BitVec.ofNat 16 cs.length) = 0 ∧ s.reg .r0 + BitVec.ofNat 16 cs.length ≠ 0xFE00 := by
  decide

/-- A core inside PUTS and one inside PUTSP. -/
theorem witness_StringsRunTheirLoop :
    let s := { State.reset with pending := some (.walking .puts) }
    let t := { State.reset with pending := some (.walking .putsp) }
    (s.run = .running ∧ s.pending = some (.walking .puts)) ∧ (t.run = .running ∧ t.pending = some (.walking .putsp)) := by
  decide

/-- Bytes of value 1 from address `a` up. -/
def ones (a n : Nat) : Memory := (List.range' a n).map (fun k => (k, 1))

theorem byteAt_ones (n : Nat) : ∀ a k, a ≤ k → k < a + n → Memory.byteAt (ones a n) k = 1 := by
  induction n with
  | zero => intro a k h h'; omega
  | succ n ih =>
    intro a k h h'
    show (if a = k then 1 else Memory.byteAt (ones (a + 1) n) k) = 1
    split
    · rfl
    · exact ih (a + 1) k (by omega) (by omega)

/-- A core with every cell 0x0101 and a key ready. -/
def fullState : State := { withConsole [0x41] [true] State.reset with mem := ones 0 131072 }

theorem fullState_cell (a : Word) : fullState.cell a = 0x0101 := by
  have h := a.isLt
  show wordOfBytes (Memory.byteAt (ones 0 131072) (2 * a.toNat + 1)) (Memory.byteAt (ones 0 131072) (2 * a.toNat)) = 0x0101
  rw [byteAt_ones _ _ _ (Nat.zero_le _) (by omega), byteAt_ones _ _ _ (Nat.zero_le _) (by omega)]
  rfl

theorem witness_WalkWithoutZeroDoesNotEnd :
    let s := { fullState with pending := some (.walking .putsp) }
    Certificates.NoEndInSight fullState ∧ s.run = .running ∧ s.pending = some (.walking .putsp) ∧
      Certificates.NoEndInSight s := by
  have h : Certificates.NoEndInSight fullState :=
    ⟨fun a _ => by rw [fullState_cell]; decide, rfl, by rw [nextByte_cons (rfl : fullState.con.input = 0x41 :: [])]; decide⟩
  exact ⟨h, rfl, rfl, h⟩

theorem witness_UnknownTrapVector :
    ((0x1F : BitVec 8).toNat < 0x20 ∨ 0x25 < (0x1F : BitVec 8).toNat) ∧
    ((0x26 : BitVec 8).toNat < 0x20 ∨ 0x25 < (0x26 : BitVec 8).toNat) := by decide

theorem witness_StepRunsTheDecodedInstruction : State.reset.run = .running ∧ State.reset.pending = none := by decide

theorem witness_EndedOrStuckDoesNotMove :
    Ended { State.reset with run := .halted } ∧ Ended { State.reset with run := .faulted } ∧
    Stuck { State.reset with pending := some (.reading .inChar) } := by
  refine ⟨?_, ?_, rfl, ⟨_, rfl⟩, rfl⟩ <;> simp [Ended]

theorem witness_DeliveredByteResumesTheWait : State.reset.run = .running ∧ State.reset.con.input = [] := by decide

theorem witness_FetchFromKbsr_ready :
    let s := withConsole [0x7A] [true] (State.reset.setPc 0xFE00)
    s.run = .running ∧ s.pending = none ∧ s.pc = 0xFE00 ∧ drawKeyAvailable s = true := by
  decide

theorem witness_FetchFromKbsr_idle :
    let s := withConsole [0x7A] [false] (State.reset.setPc 0xFE00)
    s.run = .running ∧ s.pending = none ∧ s.pc = 0xFE00 ∧ drawKeyAvailable s = false := by decide

theorem witness_StoredWordIsFetchedNext :
    let s := start 0x3600
    s.run = .running ∧ s.pending = none ∧ s.pc ≠ 0xFE00 ∧ s.pc + 1 ≠ 0xFE00 ∧
      s.cell s.pc = 0x3#4 ++ Reg.toBits .r3 ++ 0#9 := by decide

theorem witness_WritersOfRegistersAndCond :
    (∃ t, exec .getc State.reset = .next t) ∧ Certificates.readsByte .getc = true ∧
    (∃ t, exec .getc (withConsole [0xC8] [] State.reset) = .next t) ∧
    (∃ t, exec (.lea .r7 0x100) State.reset = .next t) ∧ Certificates.readsByte (.lea .r7 0x100) = false :=
  ⟨⟨_, rfl⟩, rfl, ⟨_, rfl⟩, ⟨_, rfl⟩, rfl⟩

theorem witness_OnlyBranchReadsCond :
    ∀ n z p off, Instr.puts ≠ .br n z p off ∧ Instr.addReg .r0 .r0 .r0 ≠ .br n z p off :=
  fun _ _ _ _ => ⟨nofun, nofun⟩

theorem witness_OnlyControlChangesPc :
    (∃ t, exec (.rti 0) State.reset = .next t) ∧ Certificates.jumps (.rti 0) = false := ⟨⟨_, rfl⟩, rfl⟩

theorem witness_OnlyStoresAndPollsWriteMemory :
    (∃ t, exec (.ldr .r0 .r0 0) State.reset = .next t ∧ t.con.polls = State.reset.con.polls) ∧
    Certificates.stores (.ldr .r0 .r0 0) = false ∧
    (∃ t, exec .halt State.reset = .next t) ∧ Certificates.stores .halt = false ∧
    Certificates.readsMemory .halt = false := ⟨⟨_, rfl, rfl⟩, rfl, ⟨_, rfl⟩, rfl, rfl⟩

theorem witness_OnlyExceptionIsTheDecodeFault :
    (∃ t, exec (.res 1) State.reset = .next t) ∧ (Instr.res 1).wf = true ∧
    (∃ t, exec (.trap 0 0x26) State.reset = .next t) ∧ (Instr.trap 0 0x26).wf = true ∧
    (∃ t, exec .halt State.reset = .next t) ∧ Instr.halt.wf = true ∧
    (∃ t, exec (.jmp .r7) State.reset = .next t) ∧ (Instr.jmp .r7).wf = true :=
  ⟨⟨_, rfl⟩, rfl, ⟨_, rfl⟩, rfl, ⟨_, rfl⟩, rfl, ⟨_, rfl⟩, rfl⟩

theorem witness_StreamsOnlyMoveForward : ∃ t, step (withConsole [0x61] [] (start 0xF023)) = .next t := ⟨_, rfl⟩

theorem witness_ResetMeetsTheInvariant : ∃ t, resetWith [some [0x40, 0x00, 0xF0, 0x25]] = .started t := ⟨_, rfl⟩

/-- A running, a waiting, a halted and a faulted state that meet the invariant. -/
theorem witness_StepKeepsTheInvariant :
    MachineInv State.reset ∧
    MachineInv { State.reset.setReg .r7 0x3000 with pending := some (.reading .getc) } ∧
    MachineInv { State.reset.setReg .r7 0x3000 with run := .halted } ∧
    MachineInv { State.reset with run := .faulted, fault := some ⟨.rti, 0x2FFF, 0x8000⟩ } ∧
    ∃ t, step State.reset = .next t := by
  have w : Memory.wf [] := by decide
  refine ⟨⟨w, ?_⟩, ⟨w, ?_⟩, ⟨w, ?_⟩, ⟨w, ?_⟩, ⟨_, rfl⟩⟩
  · simp [State.reset]
  · simp [State.reset, State.setReg, Config.pcStart, State.reg, Regs.get, Regs.set]
  · simp [State.reset, State.setReg, Config.pcStart, State.reg, Regs.get, Regs.set]
  · simp [State.reset, Config.pcStart, FaultRecord.Consistent]

end Sys2Proof.Tests
end

/-! ## Extensions of a field (00_scope.md R11, R12) -/

namespace Sys2Proof.Machine

/-- A bit of a sign extension is the field's own bit, and above the field its top bit. -/
theorem sext_getLsbD {k : Nat} (v : BitVec k) {i : Nat} (hi : i < 16) :
    (sext v).getLsbD i = if i < k then v.getLsbD i else v.getLsbD (k - 1) := by
  rw [sext, BitVec.getLsbD_signExtend, decide_eq_true hi, Bool.true_and, BitVec.msb_eq_getLsbD_last]

/-- The mask `(0xFFFF << k) & 0xFFFF` of R11 has the bits from `k` up to 15. -/
theorem testBit_maskAbove (k : Nat) {i : Nat} (hi : i < 16) :
    ((0xFFFF <<< k) &&& 0xFFFF).testBit i = decide (k ≤ i) := by
  have ones (j : Nat) : Nat.testBit 0xFFFF j = decide (j < 16) := Nat.testBit_two_pow_sub_one 16 j
  have below : i - k < 16 := by omega
  simp [Nat.testBit_shiftLeft, ones, hi, below]

/-- Settles O8, bit by bit: below `k` both sides are the field, from `k` up both repeat its bit `k - 1`. -/
theorem signExtensionFormula : Obligations.SignExtensionFormula := by
  unfold Obligations.SignExtensionFormula
  intro k v _ _
  apply BitVec.eq_of_getLsbD_eq
  intro i hi
  rw [sext_getLsbD v hi]
  by_cases top : v.getLsbD (k - 1) = false
  · rw [if_pos top, BitVec.getLsbD_ofNat, decide_eq_true hi, Bool.true_and, BitVec.testBit_toNat, top]
    split
    · rfl
    · exact (BitVec.getLsbD_of_ge v i (by omega)).symm
  · rw [if_neg top, BitVec.getLsbD_ofNat, decide_eq_true hi, Bool.true_and, Nat.testBit_or, BitVec.testBit_toNat,
      testBit_maskAbove k hi]
    split
    · simp [show ¬ k ≤ i by omega]
    · simp [top, show k ≤ i by omega]

/-- Settles O9: the byte is not longer than the word it is widened to, and has no bits from 8 up. -/
theorem zeroExtensionKeepsTheNumber : Obligations.ZeroExtensionKeepsTheNumber := by
  unfold Obligations.ZeroExtensionKeepsTheNumber
  intro b
  refine ⟨BitVec.toNat_setWidth_of_le (by decide), fun j hj => ?_⟩
  rw [zext8, BitVec.getLsbD_setWidth, BitVec.getLsbD_of_ge b j hj, Bool.and_false]

end Sys2Proof.Machine

/-! ## Waiting in `ReadByte()` (00_scope.md R8; log entry 5) -/

namespace Sys2Proof.Machine

/-- With no byte delivered `ReadByte()` waits. -/
theorem readByteThen_nil {s : State} (p : WaitPoint) (hi : s.con.input = []) :
    readByteThen p s = { s with pending := some (.reading p) } := by
  unfold readByteThen; rw [hi]

/-- The one byte delivered is taken, and the routine ends as in the state before the delivery. -/
theorem readByteThen_deliver {s : State} (p : WaitPoint) (b : Byte) (hi : s.con.input = []) :
    readByteThen p (deliver b s) = finishRead p b { s with pending := none } := by
  obtain ⟨_, _, _, _, _, _, _, input, _, _, _⟩ := s
  cases hi
  rfl

/-- A routine that has its byte is over. -/
theorem finishRead_pending (p : WaitPoint) (b : Byte) (s : State) : (finishRead p b s).pending = s.pending := by
  cases p <;> rfl

/-- A running core that is inside a routine goes on with it. -/
theorem step_inside {s : State} {u : Unfinished} (hr : s.run = .running) (hp : s.pending = some u) :
    step s = .next (resume u s) := by
  rcases step_cases s with ⟨hn, _⟩ | ⟨q, _, hq, e⟩ | ⟨_, hq, _⟩
  · exact absurd hr hn
  · cases hp.symm.trans hq; exact e
  · cases hp.symm.trans hq

/-- A `ReadByte()` that waited and is tried again after a delivery leaves what it leaves with the byte there at once. -/
theorem step_deliver_readByteThen {s : State} (p : WaitPoint) (b : Byte) (hr : s.run = .running)
    (hi : s.con.input = []) :
    step (deliver b (readByteThen p s)) = .next (readByteThen p (deliver b s)) := by
  have wait := readByteThen_nil p hi
  have again : step (deliver b (readByteThen p s)) = .next (readByteThen p (deliver b (readByteThen p s))) :=
    step_inside (u := .reading p) (by rw [wait]; exact hr) (by rw [wait]; rfl)
  rw [again, readByteThen_deliver p b hi, wait]
  exact congrArg _ (readByteThen_deliver p b hi)

/-- A routine that ends in `ReadByte()` waits without input, and the byte then delivered resumes it: what GETC and IN
share, `s` being the state in which they read. -/
theorem readByteThen_waits_and_resumes {s : State} (p : WaitPoint) (b : Byte) (hr : s.run = .running)
    (hi : s.con.input = []) :
    (readByteThen p s).pending = some (.reading p) ∧ (readByteThen p (deliver b s)).pending = none ∧
      step (deliver b (readByteThen p s)) = .next (readByteThen p (deliver b s)) := by
  refine ⟨by rw [readByteThen_nil p hi], ?_, step_deliver_readByteThen p b hr hi⟩
  rw [readByteThen_deliver p b hi, finishRead_pending]

/-- Settles O48: a delivery changes nothing of what GETC and IN do before they read, so both reduce to their
`ReadByte()`. -/
theorem deliveredByteResumesTheWait : Obligations.DeliveredByteResumesTheWait := by
  unfold Obligations.DeliveredByteResumesTheWait
  intro s b hr hi
  constructor
  · obtain ⟨waits, ends, resumes⟩ := readByteThen_waits_and_resumes (s := linkReturn s) .getc b hr hi
    exact ⟨_, _, rfl, waits, rfl, ends, resumes⟩
  · obtain ⟨waits, ends, resumes⟩ :=
      readByteThen_waits_and_resumes (s := writeBytes Config.inPrompt (linkReturn s)) .inChar b hr hi
    exact ⟨_, _, rfl, waits, rfl, ends, resumes⟩

end Sys2Proof.Machine

/-! ## The console's streams (00_scope.md R8, R9) -/

namespace Sys2Proof.Machine

/-- From console `c` to console `d` input was taken from the front only and output added at the end only. -/
structure Console.Forward (c d : Console) : Prop where
  input : ∃ taken, c.input = taken ++ d.input
  output : ∃ written, d.output = c.output ++ written

theorem Console.Forward.refl (c : Console) : c.Forward c := ⟨⟨[], rfl⟩, ⟨[], (List.append_nil _).symm⟩⟩

theorem Console.Forward.trans {c d e : Console} (h : c.Forward d) (h' : d.Forward e) : c.Forward e := by
  obtain ⟨⟨taken, hi⟩, ⟨written, ho⟩⟩ := h
  obtain ⟨⟨taken', hi'⟩, ⟨written', ho'⟩⟩ := h'
  exact ⟨⟨taken ++ taken', by rw [hi, hi', List.append_assoc]⟩,
    ⟨written ++ written', by rw [ho', ho, List.append_assoc]⟩⟩

theorem PortsOnly.forward {s t : State} (h : PortsOnly s t) : s.con.Forward t.con := ⟨h.input, h.output⟩

theorem memRead_forward (a : Word) (s : State) : s.con.Forward (memRead a s).2.con :=
  ((PortsOnly.refl s).memRead a).forward

theorem emit_forward (es : List OutEvent) (s : State) : s.con.Forward (s.emit es).con :=
  ((PortsOnly.refl s).emit es).forward

theorem putString_forward (r : StringRoutine) (s : State) : s.con.Forward (putString r s).con := by
  obtain ⟨t, hp, e | e⟩ := putString_ports r s <;> rw [e] <;> exact hp.forward

theorem readByteThen_forward (p : WaitPoint) (s : State) : s.con.Forward (readByteThen p s).con := by
  rcases readByteThen_cases p s with ⟨_, e⟩ | ⟨b, rest, echo, hi, e⟩ <;> rw [e]
  · exact .refl _
  · exact ⟨⟨[b], hi⟩, ⟨echo, rfl⟩⟩

theorem resume_forward (u : Unfinished) (s : State) : s.con.Forward (resume u s).con := by
  cases u with
  | reading p => exact readByteThen_forward p s
  | walking r => exact putString_forward r s

theorem unknownTrap_con (w : Word) (s : State) : (unknownTrap w s).con = s.con := by
  rcases unknownTrap_cases w s with ⟨_, e⟩ | ⟨_, e⟩ <;> rw [e]
  rfl

/-- The outcome is a next state whose console is one further on than `s`'s. -/
def AnswersForward (s : State) (o : Host.Outcome State Fault Refusal) : Prop :=
  ∃ t, o = .next t ∧ s.con.Forward t.con

theorem execGetc_forward (s : State) : AnswersForward s (execGetc s) :=
  ⟨_, rfl, readByteThen_forward .getc (linkReturn s)⟩

theorem execOut_forward (s : State) : AnswersForward s (execOut s) :=
  ⟨_, rfl, (emit_forward _ (linkReturn s)).trans (emit_forward [.flush] _)⟩

theorem execPuts_forward (s : State) : AnswersForward s (execPuts s) :=
  ⟨_, rfl, putString_forward .puts (linkReturn s)⟩

theorem execIn_forward (s : State) : AnswersForward s (execIn s) :=
  ⟨_, rfl, (emit_forward _ (linkReturn s)).trans (readByteThen_forward .inChar _)⟩

theorem execPutsp_forward (s : State) : AnswersForward s (execPutsp s) :=
  ⟨_, rfl, putString_forward .putsp (linkReturn s)⟩

theorem execHalt_forward (s : State) : AnswersForward s (execHalt s) :=
  ⟨_, rfl, (emit_forward _ (linkReturn s)).trans (emit_forward [.flush] _)⟩

theorem execTrap_forward (ign : BitVec 4) (v : BitVec 8) (s : State) : AnswersForward s (execTrap ign v s) := by
  rcases execTrap_cases ign v s with ⟨_, e⟩ | ⟨_, e⟩ | ⟨_, e⟩ | ⟨_, e⟩ | ⟨_, e⟩ | ⟨_, e⟩ | ⟨_, e⟩ <;> rw [e]
  · exact execGetc_forward s
  · exact execOut_forward s
  · exact execPuts_forward s
  · exact execIn_forward s
  · exact execPutsp_forward s
  · exact execHalt_forward s
  · exact ⟨_, rfl, by rw [unknownTrap_con]; exact .refl _⟩

/-- Every instruction answers, and moves the streams forward only. -/
theorem exec_forward (i : Instr) (s : State) : AnswersForward s (exec i s) := by
  cases i with
  | addReg | addImm | andReg | andImm | not | jmp | jsr | jsrr | lea | st | str | rti | res =>
    exact ⟨_, rfl, .refl _⟩
  | br n z p off => exact ⟨_, rfl, by split <;> exact .refl _⟩
  | ld | ldr => exact ⟨_, rfl, memRead_forward _ s⟩
  | ldi => exact ⟨_, rfl, (memRead_forward _ s).trans (memRead_forward _ _)⟩
  | sti => exact ⟨_, rfl, memRead_forward _ s⟩
  | getc => exact execGetc_forward s
  | out => exact execOut_forward s
  | puts => exact execPuts_forward s
  | inChar => exact execIn_forward s
  | putsp => exact execPutsp_forward s
  | halt => exact execHalt_forward s
  | trap ign v => exact execTrap_forward ign v s

/-- Every step answers, and moves the streams forward only. -/
theorem step_forward (s : State) : AnswersForward s (step s) := by
  rcases step_cases s with ⟨_, e⟩ | ⟨u, _, _, e⟩ | ⟨_, _, e⟩ <;> rw [e]
  · exact ⟨s, rfl, .refl _⟩
  · exact ⟨_, rfl, resume_forward u s⟩
  · obtain ⟨t, he, ht⟩ := exec_forward (decode (fetch s).1) (fetch s).2
    exact ⟨t, he, (memRead_forward s.pc s).trans ht⟩

/-- Settles O56: whichever way a step begins, it moves the streams forward only. -/
theorem streamsOnlyMoveForward : Obligations.StreamsOnlyMoveForward := by
  unfold Obligations.StreamsOnlyMoveForward
  intro s t h
  obtain ⟨u, hu, hf⟩ := step_forward s
  cases h.symm.trans hu
  exact ⟨hf.input, hf.output⟩

end Sys2Proof.Machine

/-! ## The state after reset and the image loader (10_state.md R34, 70_reset_and_hazards.md R170 to R174) -/

namespace Sys2Proof.Machine

/-- Every cell of empty memory holds 0. -/
@[simp] theorem Memory.cell_nil (a : Word) : Memory.cell [] a = 0 := by
  change wordOfBytes 0 0 = 0
  decide

/-- Settles O1, field by field; the one image holds no word, so its load leaves memory empty. -/
theorem resetStateFields : Obligations.ResetStateFields := by
  unfold Obligations.ResetStateFields
  exact ⟨fun r => by cases r <;> rfl, rfl, rfl, rfl, rfl, Memory.cell_nil, rfl⟩

/-- A word of two bytes as a number, the first byte high. -/
theorem wordOfBytes_toNat (high low : Byte) : (wordOfBytes high low).toNat = high.toNat * 256 + low.toNat := by
  rw [wordOfBytes, BitVec.toNat_append, ← Nat.shiftLeft_add_eq_or_of_lt low.isLt, Nat.shiftLeft_eq]

/-- The word a payload placed from `origin` up gives for address `a`: what `Certificates.imageWord` reads behind an
image's two origin bytes. -/
def payloadWord (payload : List Byte) (origin : Nat) (a : Word) : Option Word :=
  if origin ≤ a.toNat then
    match payload[2 * (a.toNat - origin)]?, payload[2 * (a.toNat - origin) + 1]? with
    | some x, some y => some (BitVec.ofNat 16 (x.toNat * 256 + y.toNat))
    | _, _ => none
  else none

theorem imageWord_cons_cons (high low : Byte) (payload : List Byte) (a : Word) :
    Certificates.imageWord (high :: low :: payload) a = payloadWord payload (wordOfBytes high low).toNat a := by
  rw [wordOfBytes_toNat]; rfl

/-- No word stands below the origin, so none of an origin past the last cell. -/
theorem payloadWord_of_lt (payload : List Byte) {origin : Nat} {a : Word} (h : a.toNat < origin) :
    payloadWord payload origin a = none := if_neg (by omega)

/-- The first two bytes of a payload are the word at the origin. -/
theorem payloadWord_cons_cons_origin (x y : Byte) (payload : List Byte) (a : Word) :
    payloadWord (x :: y :: payload) a.toNat a = some (wordOfBytes x y) := by
  simp [payloadWord, ← wordOfBytes_toNat]

/-- Behind them the payload goes on at the next address. -/
theorem payloadWord_cons_cons_ne (x y : Byte) (payload : List Byte) {origin : Nat} {a : Word} (h : a.toNat ≠ origin) :
    payloadWord (x :: y :: payload) origin a = payloadWord payload (origin + 1) a := by
  unfold payloadWord
  by_cases hlt : origin + 1 ≤ a.toNat
  · have shift : 2 * (a.toNat - origin) = 2 * (a.toNat - (origin + 1)) + 2 := by omega
    rw [if_pos hlt, if_pos (by omega), shift]
    rfl
  · rw [if_neg hlt, if_neg (by omega)]

/-- A payload of fewer than two bytes holds no word. -/
theorem payloadWord_of_length_lt {payload : List Byte} (h : payload.length < 2) (origin : Nat) (a : Word) :
    payloadWord payload origin a = none := by
  unfold payloadWord
  split
  · have past : payload[2 * (a.toNat - origin) + 1]? = none := List.getElem?_eq_none (by omega)
    simp [past]
  · rfl

/-- A cell after the words of a payload are written: the payload's word for it, else what it held. -/
theorem cell_loadWords (payload : List Byte) (origin : Nat) (m : Memory) (a : Word) :
    Memory.cell (loadWords payload origin m) a = (payloadWord payload origin a).getD (Memory.cell m a) := by
  fun_induction loadWords payload origin m with
  | case1 x y rest origin m h ih =>
    rw [ih]
    by_cases ha : a.toNat = origin
    · subst ha
      rw [payloadWord_of_lt rest (Nat.lt_succ_self _), payloadWord_cons_cons_origin, BitVec.ofNat_toNat,
        BitVec.setWidth_eq]
      exact Memory.cell_setCell_same m a _
    · rw [payloadWord_cons_cons_ne x y rest ha, Memory.cell_setCell_ne]
      rintro rfl
      exact ha (by rw [BitVec.toNat_ofNat]; omega)
  | case2 x y rest origin m h => rw [payloadWord_of_lt _ (by omega)]; rfl
  | case3 bytes origin m short =>
    rw [payloadWord_of_length_lt]
    · rfl
    · rcases bytes with _ | ⟨x, _ | ⟨y, rest⟩⟩
      · exact Nat.zero_lt_two
      · exact Nat.one_lt_two
      · exact absurd rfl (short x y rest)

/-- A cell after one image is loaded: the image's word for it, else what it held. -/
theorem cell_loadImage {m u : Memory} {img : Image} (h : loadImage m img = some u) (a : Word) :
    Memory.cell u a = (img.bind (fun stream => Certificates.imageWord stream a)).getD (Memory.cell m a) := by
  unfold loadImage at h
  split at h
  · cases h
    rw [cell_loadWords, Option.bind_some, imageWord_cons_cons]
  · cases h

/-- A cell after the images are loaded in order: the word of the last image that covers it, else what it held. -/
theorem cell_loadImages {images : List Image} {m u : Memory} (h : loadImages images m = some u) (a : Word) :
    Memory.cell u a =
      (images.reverse.findSome? (fun img => img.bind (fun stream => Certificates.imageWord stream a))).getD
        (Memory.cell m a) := by
  induction images generalizing m with
  | nil => cases h; rfl
  | cons img images ih =>
    obtain ⟨v, first, rest⟩ := loadImages_cons h
    rw [ih rest, cell_loadImage first, List.reverse_cons, List.findSome?_append, List.findSome?_singleton]
    cases images.reverse.findSome? _ <;> rfl

/-- An image loads exactly if it can be opened and holds its two origin bytes (R174). -/
theorem loadImage_isSome_iff (m : Memory) (img : Image) :
    (loadImage m img).isSome ↔ ∃ stream, img = some stream ∧ 2 ≤ stream.length := by
  rcases img with _ | _ | ⟨high, _ | ⟨low, rest⟩⟩ <;> simp [loadImage]

/-- A list of images loads exactly if each of them does (R173, R174). -/
theorem loadImages_isSome_iff (images : List Image) (m : Memory) :
    (loadImages images m).isSome ↔ ∀ img ∈ images, ∃ stream, img = some stream ∧ 2 ≤ stream.length := by
  induction images generalizing m with
  | nil => simp [loadImages]
  | cons img images ih =>
    rw [List.forall_mem_cons, ← loadImage_isSome_iff m img]
    unfold loadImages
    cases loadImage m img with
    | none => simp
    | some u => simpa using ih u

/-- A reset with a list that loads starts. -/
theorem resetWith_of_loadImages_some {images : List Image} {m : Memory} (hne : images ≠ [])
    (h : loadImages images [] = some m) : resetWith images = .started { State.reset with mem := m } := by
  cases images with
  | nil => exact absurd rfl hne
  | cons img images => unfold resetWith; simp only [State.reset, h]

/-- A reset with a list that does not load is a load error. -/
theorem resetWith_of_loadImages_none {images : List Image} (h : loadImages images [] = none) :
    resetWith images = .loadError := by
  cases images with
  | nil => rfl
  | cons img images => unfold resetWith; simp only [State.reset, h]

/-- Settles O2: the cells by induction over the images and, within one, over its words; which lists load by induction over
the images. -/
theorem resetLoadsImagesInOrder : Obligations.ResetLoadsImagesInOrder := by
  unfold Obligations.ResetLoadsImagesInOrder
  refine ⟨fun images t h => ?_, fun images hne hlong => ?_, fun images ⟨img, hmem, hshort⟩ => ?_⟩
  · obtain ⟨m, hload, rfl⟩ := resetWith_started h
    obtain ⟨hreg, hpc, hcond, hrun, hfault, -, -⟩ := resetStateFields
    refine ⟨hreg, hpc, hcond, hrun, hfault, fun a => ?_⟩
    rw [State.cell_eq, cell_loadImages hload, Memory.cell_nil, Certificates.loadedWord]
  · obtain ⟨m, hload⟩ := Option.isSome_iff_exists.mp ((loadImages_isSome_iff images []).mpr hlong)
    exact ⟨_, resetWith_of_loadImages_some hne hload⟩
  · refine resetWith_of_loadImages_none (Option.not_isSome_iff_eq_none.mp fun hload => ?_)
    obtain ⟨stream, himg, hlen⟩ := (loadImages_isSome_iff images []).mp hload img hmem
    exact absurd (hshort stream himg) (by omega)

end Sys2Proof.Machine

/-! ## What an instruction can do (10_state.md R21, R23, R26) -/

namespace Sys2Proof.Machine

/-- What an instruction in state `s` can answer, with the registers it may write, the register whose value sets COND, whether
it reads a byte into R0, and whether it may change the pc. A TRAP works at the ports from `linkReturn s` on. In what
`service` leaves, `q` may be any unfinished routine: the statements drawn from it hold whichever it is. -/
inductive Effect : List Reg → Option Reg → Bool → Bool → State → State → Prop where
  | result {s u : State} (ports : PortsOnly s u) (dr : Reg) (v : Word) :
      Effect [dr] (some dr) false false s (u.writeResult dr v)
  | store {s u : State} (ports : PortsOnly s u) (a v : Word) : Effect [] none false false s (u.setCell a v)
  | jump (s : State) (target : Word) : Effect [] none false true s (s.setPc target)
  | call (s : State) (target : Word) : Effect [.r7] none false true s ((linkReturn s).setPc target)
  | readByte {s u : State} (ports : PortsOnly (linkReturn s) u) (input : u.con.input = s.con.input) (p : WaitPoint) :
      Effect [.r0, .r7] none true false s (readByteThen p u)
  | service {s u : State} (ports : PortsOnly (linkReturn s) u) (q : Option Unfinished) :
      Effect [.r7] none false false s { u with pending := q }
  | halt {s u : State} (ports : PortsOnly (linkReturn s) u) : Effect [.r7] none false false s { u with run := .halted }
  | fault (s : State) {k : FaultKind} {w : Word} (consistent : ∀ a, FaultRecord.Consistent ⟨k, a, w⟩) :
      Effect [] none false false s (raiseDecodeFault k w s)
  | trapFault (s : State) {k : FaultKind} {w : Word} (consistent : ∀ a, FaultRecord.Consistent ⟨k, a, w⟩) :
      Effect [.r7] none false false s (raiseDecodeFault k w (linkReturn s))

/-- What the instruction `i` can answer. -/
abbrev InstrEffect (i : Instr) : State → State → Prop :=
  Effect (Certificates.registersWritten i) (Certificates.flagSource i) (Certificates.readsByte i) (Certificates.jumps i)

theorem flush_writeBytes_ports (bs : List Byte) (s : State) : PortsOnly s (flush (writeBytes bs s)) :=
  ((PortsOnly.refl s).emit (bs.map .byte)).emit [.flush]

theorem serviceGetc_effect (s : State) : InstrEffect .getc s (serviceGetc (linkReturn s)) :=
  .readByte (.refl _) rfl .getc

theorem serviceOut_effect (s : State) : InstrEffect .out s (serviceOut (linkReturn s)) :=
  .service (flush_writeBytes_ports _ _) _

theorem putString_effect (r : StringRoutine) (s : State) :
    Effect [.r7] none false false s (putString r (linkReturn s)) := by
  obtain ⟨t, ports, e | e⟩ := putString_ports r (linkReturn s) <;> rw [e] <;> exact .service ports _

theorem serviceIn_effect (s : State) : InstrEffect .inChar s (serviceIn (linkReturn s)) :=
  .readByte ((PortsOnly.refl _).emit (Config.inPrompt.map .byte)) rfl .inChar

theorem serviceHalt_effect (s : State) : InstrEffect .halt s (serviceHalt (linkReturn s)) :=
  .halt (flush_writeBytes_ports _ _)

/-- The vector of the general TRAP row stands in bits 7:0 of its word. -/
theorem encode_trap_vector (ign : BitVec 4) (v : BitVec 8) : (encode (.trap ign v)).extractLsb' 0 8 = v :=
  (encode_field _ 0 8 (by decide)).trans (BitVec.extractLsb'_append_eq_right)

/-- A vector outside 0x20..0x25 does nothing but to write R7, or raises its fault (44_trap.md R127). -/
theorem unknownTrap_effect (ign : BitVec 4) {v : BitVec 8} (hv : v.toNat < 0x20 ∨ 0x25 < v.toNat) (s : State) :
    Effect [.r7] none false false s (unknownTrap (encode (.trap ign v)) (linkReturn s)) := by
  rcases unknownTrap_cases (encode (.trap ign v)) (linkReturn s) with ⟨hc, e⟩ | ⟨_, e⟩ <;> rw [e]
  · refine .trapFault s fun a => ⟨encode_opcode _, hc, ?_⟩
    rw [encode_trap_vector]
    omega
  · exact .service (.refl _) _

theorem readsAByte_unknown {v : BitVec 8} (hv : v.toNat < 0x20 ∨ 0x25 < v.toNat) : Certificates.readsAByte v = false := by
  rw [Certificates.readsAByte, Bool.or_eq_false_iff, beq_eq_false_iff_ne, beq_eq_false_iff_ne]
  constructor <;> (rintro rfl; revert hv; decide)

theorem execTrap_effect (ign : BitVec 4) (v : BitVec 8) {s t : State} (h : execTrap ign v s = .next t) :
    InstrEffect (.trap ign v) s t := by
  rcases execTrap_cases ign v s with ⟨rfl, e⟩ | ⟨rfl, e⟩ | ⟨rfl, e⟩ | ⟨rfl, e⟩ | ⟨rfl, e⟩ | ⟨rfl, e⟩ | ⟨hv, e⟩ <;>
    cases e.symm.trans h
  · exact serviceGetc_effect s
  · exact serviceOut_effect s
  · exact putString_effect .puts s
  · exact serviceIn_effect s
  · exact putString_effect .putsp s
  · exact serviceHalt_effect s
  · simpa [InstrEffect, Certificates.registersWritten, Certificates.flagSource, Certificates.readsByte,
      Certificates.jumps, readsAByte_unknown hv] using unknownTrap_effect ign hv s

/-- Every instruction that answers does what its row of the lists says. -/
theorem exec_effect {i : Instr} {s t : State} (h : exec i s = .next t) : InstrEffect i s t := by
  cases i with
  | addReg | addImm | andReg | andImm | not | lea => cases h; exact .result (.refl s) _ _
  | ld | ldr => cases h; exact .result ((PortsOnly.refl s).memRead _) _ _
  | ldi => cases h; exact .result (((PortsOnly.refl s).memRead _).memRead _) _ _
  | st | str => cases h; exact .store (.refl s) _ _
  | sti => cases h; exact .store ((PortsOnly.refl s).memRead _) _ _
  | br n z p off =>
    cases h
    split
    · exact .jump s _
    · exact .jump s s.pc
  | jmp => cases h; exact .jump s _
  | jsr | jsrr => cases h; exact .call s _
  | getc => cases h; exact serviceGetc_effect s
  | out => cases h; exact serviceOut_effect s
  | puts => cases h; exact putString_effect .puts s
  | inChar => cases h; exact serviceIn_effect s
  | putsp => cases h; exact putString_effect .putsp s
  | halt => cases h; exact serviceHalt_effect s
  | trap ign v => exact execTrap_effect ign v h
  | rti | res => cases h; exact .fault s fun _ => encode_opcode _

/-! ### The flag of a value (10_state.md R25, R28) -/

/-- The flag `setcc` gives is the one R25 asks for. -/
theorem flagFor_flagOf (v : Word) : FlagFor v (flagOf v) := by
  unfold flagOf
  refine ⟨fun zero => if_pos zero, fun top => ?_, fun nonzero top => ?_⟩
  · have nonzero : v ≠ 0 := by rintro rfl; exact absurd top (by decide)
    rw [if_neg nonzero, if_pos top]
  · rw [if_neg nonzero, top]; rfl

theorem writeResult_flagFor (s : State) (r : Reg) (v : Word) :
    FlagFor ((s.writeResult r v).reg r) (s.writeResult r v).cond := by
  rw [State.writeResult_reg_same]
  exact flagFor_flagOf v

/-- Settles O10: the register reads back the value the flag was set from. -/
theorem setccFollowsTheWrittenValue : Obligations.SetccFollowsTheWrittenValue := by
  unfold Obligations.SetccFollowsTheWrittenValue
  exact fun s r v => ⟨State.writeResult_reg_same s r v, writeResult_flagFor s r v⟩

/-- Settles O11, flag by flag: the one-hot value of each picks its own bit of the mask. -/
theorem condOneHotAndBranchTest : Obligations.CondOneHotAndBranchTest := by
  unfold Obligations.CondOneHotAndBranchTest
  refine ⟨rfl, rfl, rfl, fun n z p c => ?_⟩
  cases c with
  | n | z | p => revert n z p; decide

/-! ### What `ReadByte()` does to the registers, the pc and COND -/

theorem readByteThen_pc (p : WaitPoint) (s : State) : (readByteThen p s).pc = s.pc := by
  rcases readByteThen_cases p s with ⟨_, e⟩ | ⟨_, _, _, _, e⟩ <;> rw [e]
  exact State.writeResult_pc _ _ _

theorem readByteThen_reg_ne (p : WaitPoint) (s : State) {r : Reg} (h : r ≠ .r0) : (readByteThen p s).reg r = s.reg r := by
  rcases readByteThen_cases p s with ⟨_, e⟩ | ⟨_, _, _, _, e⟩ <;> rw [e]
  · rfl
  · exact State.writeResult_reg_ne _ _ h

/-- COND after `ReadByte()`: unchanged in a core that waits, else set from R0. -/
theorem readByteThen_cond (p : WaitPoint) (s : State) :
    (s.con.input ≠ [] ∧ FlagFor ((readByteThen p s).reg .r0) (readByteThen p s).cond) ∨
      (s.con.input = [] ∧ (readByteThen p s).cond = s.cond) := by
  rcases readByteThen_cases p s with ⟨hi, e⟩ | ⟨b, rest, _, hi, e⟩ <;> rw [e]
  · exact .inr ⟨hi, rfl⟩
  · exact .inl ⟨by simp [hi], writeResult_flagFor _ _ _⟩

/-! ### What an effect keeps -/

section

variable {ws : List Reg} {src : Option Reg} {reads jumps : Bool} {s t : State}

theorem Effect.pc_eq (h : Effect ws src reads false s t) : t.pc = s.pc := by
  cases h with
  | result ports | store ports | service ports | halt ports => exact ports.pc
  | readByte ports => exact (readByteThen_pc _ _).trans ports.pc
  | fault | trapFault => rfl

theorem Effect.sameRegsBut (h : Effect ws src reads jumps s t) : SameRegsBut ws s t := by
  intro r hr
  cases h with
  | result ports dr v => exact (State.writeResult_reg_ne _ v (by simpa using hr)).trans (ports.reg r)
  | store ports => exact ports.reg r
  | jump | fault => rfl
  | call | trapFault => exact linkReturn_reg_ne s (by simpa using hr)
  | readByte ports _ p =>
    obtain ⟨h0, h7⟩ : r ≠ .r0 ∧ r ≠ .r7 := by simpa using hr
    exact (readByteThen_reg_ne p _ h0).trans ((ports.reg r).trans (linkReturn_reg_ne s h7))
  | service ports | halt ports => exact (ports.reg r).trans (linkReturn_reg_ne s (by simpa using hr))

theorem Effect.flagFor {r : Reg} (h : Effect ws (some r) reads jumps s t) : FlagFor (t.reg r) t.cond := by
  cases h with
  | result => exact writeResult_flagFor _ _ _

theorem Effect.cond_eq (h : Effect ws none false jumps s t) : t.cond = s.cond := by
  cases h with
  | store ports | service ports | halt ports => exact ports.cond
  | jump | call | fault | trapFault => rfl

theorem Effect.cond_of_reads (h : Effect ws src true jumps s t) :
    (s.con.input ≠ [] ∧ FlagFor (t.reg .r0) t.cond) ∨ (s.con.input = [] ∧ t.cond = s.cond) := by
  cases h with
  | @readByte _ u ports input p =>
    have flag := readByteThen_cond p u
    rw [input, ports.cond] at flag
    exact flag

end

/-- Settles O53: every effect but a jump and a call keeps the pc. -/
theorem onlyControlChangesPc : Obligations.OnlyControlChangesPc := by
  unfold Obligations.OnlyControlChangesPc
  intro i s t h hj
  have effect := exec_effect h
  rw [InstrEffect, hj] at effect
  exact effect.pc_eq

/-- Settles O51: each clause holds of every effect, and of an instruction through its own. -/
theorem writersOfRegistersAndCond : Obligations.WritersOfRegistersAndCond := by
  unfold Obligations.WritersOfRegistersAndCond
  intro i s t h
  have effect := exec_effect h
  refine ⟨effect.sameRegsBut, fun reads => ?_, fun reads => ?_⟩
  · rw [InstrEffect, reads] at effect
    exact effect.cond_of_reads
  · rw [InstrEffect, reads] at effect
    cases source : Certificates.flagSource i with
    | some r =>
      rw [source] at effect
      exact effect.flagFor
    | none =>
      rw [source] at effect
      exact effect.cond_eq

end Sys2Proof.Machine

/-! ## The machine invariant (10_state.md R35, 44_trap.md R120, 60_exceptions.md R151, R152) -/

namespace Sys2Proof.Machine

/-- A running core, without a fault record, over canonical memory. -/
structure Running (s : State) : Prop where
  wf : Memory.wf s.mem
  run : s.run = .running
  fault : s.fault = none

/-- A running core inside no routine: where an instruction begins. -/
structure Fresh (s : State) : Prop extends Running s where
  pending : s.pending = none

/-- A running core whose R7 is its pc: where a service routine works. -/
structure Linked (s : State) : Prop extends Running s where
  link : s.reg .r7 = s.pc

/-- A running core meets the invariant if R7 is its pc while it is inside a routine. -/
theorem Running.inv {s : State} (h : Running s) (link : s.pending ≠ none → s.reg .r7 = s.pc) : MachineInv s :=
  ⟨h.wf, by simp [h.run, h.fault], by simp [h.fault], by simp [h.run], fun hp => ⟨h.run, link hp⟩⟩

theorem Fresh.inv {s : State} (h : Fresh s) : MachineInv s := h.toRunning.inv fun hp => absurd h.pending hp

theorem Linked.inv {s : State} (h : Linked s) : MachineInv s := h.toRunning.inv fun _ => h.link

theorem MachineInv.running {s : State} (h : MachineInv s) (hr : s.run = .running) : Running s := by
  obtain ⟨wf, faulted, _, _, _⟩ := h
  refine ⟨wf, hr, ?_⟩
  by_contra hf
  cases hr.symm.trans (faulted.mpr hf)

/-- A running core that is inside a routine has its pc in R7. -/
theorem MachineInv.linked {s : State} (h : MachineInv s) {u : Unfinished} (hr : s.run = .running)
    (hp : s.pending = some u) : Linked s := by
  refine ⟨h.running hr, ?_⟩
  obtain ⟨_, _, _, _, inside⟩ := h
  exact (inside (by simp [hp])).2

/-! ### What keeps it -/

theorem Running.ports {s u : State} (h : Running s) (ports : PortsOnly s u) : Running u :=
  ⟨ports.wf h.wf, ports.run.trans h.run, ports.fault.trans h.fault⟩

theorem Fresh.ports {s u : State} (h : Fresh s) (ports : PortsOnly s u) : Fresh u :=
  ⟨h.toRunning.ports ports, ports.pending.trans h.pending⟩

theorem Linked.ports {s u : State} (h : Linked s) (ports : PortsOnly s u) : Linked u :=
  ⟨h.toRunning.ports ports, by rw [ports.reg, ports.pc, h.link]⟩

theorem Linked.withPending {s : State} (h : Linked s) (q : Option Unfinished) : Linked { s with pending := q } :=
  ⟨⟨h.wf, h.run, h.fault⟩, h.link⟩

theorem Fresh.setPc {s : State} (h : Fresh s) (a : Word) : Fresh (s.setPc a) := ⟨⟨h.wf, h.run, h.fault⟩, h.pending⟩

theorem Fresh.setCell {s : State} (h : Fresh s) (a v : Word) : Fresh (s.setCell a v) :=
  ⟨⟨Memory.wf_setCell h.wf a v, h.run, h.fault⟩, h.pending⟩

theorem Fresh.writeResult {s : State} (h : Fresh s) (r : Reg) (v : Word) : Fresh (s.writeResult r v) :=
  ⟨⟨h.wf, h.run, h.fault⟩, h.pending⟩

theorem Fresh.linkReturn {s : State} (h : Fresh s) : Fresh (linkReturn s) := ⟨⟨h.wf, h.run, h.fault⟩, h.pending⟩

theorem Fresh.linked {s : State} (h : Fresh s) : Linked (Machine.linkReturn s) :=
  ⟨h.linkReturn.toRunning, linkReturn_reg_same s⟩

theorem Fresh.fetch {s : State} (h : Fresh s) : Fresh (fetch s).2 :=
  (h.ports ((PortsOnly.refl s).memRead s.pc)).setPc _

theorem Linked.readByteThen {s : State} (h : Linked s) (p : WaitPoint) : Linked (readByteThen p s) := by
  refine ⟨?_, by rw [readByteThen_reg_ne p s (by decide), readByteThen_pc, h.link]⟩
  rcases readByteThen_cases p s with ⟨_, e⟩ | ⟨_, _, _, _, e⟩ <;> rw [e] <;> exact ⟨h.wf, h.run, h.fault⟩

theorem Linked.putString {s : State} (h : Linked s) (r : StringRoutine) : Linked (putString r s) := by
  obtain ⟨t, ports, e | e⟩ := putString_ports r s <;> rw [e] <;> exact (h.ports ports).withPending _

theorem Linked.resume {s : State} (h : Linked s) (u : Unfinished) : Linked (resume u s) := by
  cases u with
  | reading p => exact h.readByteThen p
  | walking r => exact h.putString r

/-- A core that halts inside no routine with its pc in R7 meets the invariant. -/
theorem MachineInv.halted {s : State} (fresh : Fresh s) (linked : Linked s) : MachineInv { s with run := .halted } :=
  ⟨fresh.wf, by simp [fresh.fault], by simp [fresh.fault], fun _ => linked.link, fun hp => absurd fresh.pending hp⟩

/-- A core that faults inside no routine with a record of the right kind meets the invariant. -/
theorem MachineInv.raiseDecodeFault {s : State} (h : Fresh s) {k : FaultKind} {w : Word}
    (consistent : ∀ a, FaultRecord.Consistent ⟨k, a, w⟩) : MachineInv (raiseDecodeFault k w s) := by
  refine ⟨h.wf, by simp, ?_, nofun, fun hp => absurd h.pending hp⟩
  rintro f ⟨⟩
  exact ⟨consistent _, by simp⟩

/-- What an instruction answers from a running core inside no routine meets the invariant. -/
theorem Effect.inv {ws : List Reg} {src : Option Reg} {reads jumps : Bool} {s t : State}
    (h : Effect ws src reads jumps s t) (hs : Fresh s) : MachineInv t := by
  cases h with
  | result ports dr v => exact ((hs.ports ports).writeResult dr v).inv
  | store ports a v => exact ((hs.ports ports).setCell a v).inv
  | jump _ target => exact (hs.setPc target).inv
  | call _ target => exact (hs.linkReturn.setPc target).inv
  | readByte ports _ p => exact ((hs.linked.ports ports).readByteThen p).inv
  | service ports q => exact ((hs.linked.ports ports).withPending q).inv
  | halt ports => exact .halted (hs.linkReturn.ports ports) (hs.linked.ports ports)
  | fault _ consistent => exact .raiseDecodeFault hs consistent
  | trapFault _ consistent => exact .raiseDecodeFault hs.linkReturn consistent

/-- Settles O59: an ended run does not move, an unfinished routine keeps R7 and the pc, and an instruction begins in a
running core inside no routine. -/
theorem stepKeepsTheInvariant : Obligations.StepKeepsTheInvariant := by
  unfold Obligations.StepKeepsTheInvariant
  intro s t hs h
  rcases step_cases s with ⟨_, e⟩ | ⟨u, hr, hp, e⟩ | ⟨hr, hp, e⟩ <;> rw [e] at h
  · cases h
    exact hs
  · cases h
    exact ((hs.linked hr hp).resume u).inv
  · have fresh : Fresh s := ⟨hs.running hr, hp⟩
    exact (exec_effect h).inv fresh.fetch

/-- Settles O58: memory is canonical after a load, and the rest is as State.reset has it. -/
theorem resetMeetsTheInvariant : Obligations.ResetMeetsTheInvariant := by
  unfold Obligations.ResetMeetsTheInvariant
  have started {m : Memory} (wf : Memory.wf m) : Fresh { State.reset with mem := m } := ⟨⟨wf, rfl, rfl⟩, rfl⟩
  refine ⟨(started Memory.wf_nil).inv, fun images t h => ?_⟩
  obtain ⟨m, hload, rfl⟩ := resetWith_started h
  exact (started (wf_loadImages hload Memory.wf_nil)).inv

/-- Settles O47: a core that waits without input sets the unfinished routine it is in already. -/
theorem endedOrStuckDoesNotMove : Obligations.EndedOrStuckDoesNotMove := by
  unfold Obligations.EndedOrStuckDoesNotMove
  constructor
  · intro s ended
    rcases step_cases s with ⟨_, e⟩ | ⟨_, hr, _, _⟩ | ⟨hr, _, _⟩
    · exact e
    · exact absurd hr ended
    · exact absurd hr ended
  · rintro s ⟨hr, ⟨p, hp⟩, hi⟩
    calc step s = .next (readByteThen p s) := step_inside hr hp
      _ = .next { s with pending := some (.reading p) } := by rw [readByteThen_nil p hi]
      _ = .next s := by rw [← hp]

end Sys2Proof.Machine

/-! ## Independence of COND (10_state.md R27) -/

namespace Sys2Proof.Machine

open Certificates (forgetCond)

theorem pollKeyboard_setCond (s : State) (c : Cond) : pollKeyboard (s.setCond c) = (pollKeyboard s).setCond c := by
  rcases poll_ready_or_idle s with hd | hd
  · rw [pollKeyboard_ready hd, pollKeyboard_ready (s := s.setCond c) hd]; rfl
  · rw [pollKeyboard_idle hd, pollKeyboard_idle (s := s.setCond c) hd]; rfl

theorem memRead_setCond (a : Word) (s : State) (c : Cond) :
    memRead a (s.setCond c) = ((memRead a s).1, (memRead a s).2.setCond c) := by
  by_cases h : a = Config.kbsrAddr
  · rw [h, memRead_kbsr, memRead_kbsr, pollKeyboard_setCond, State.setCond_cell]
  · rw [memRead_plain h, memRead_plain h, State.setCond_cell]

/-- A load sets COND itself, so what it was is lost. -/
theorem loadInto_setCond (dr : Reg) (ea : Word) (s : State) (c : Cond) : loadInto dr ea (s.setCond c) = loadInto dr ea s := by
  unfold loadInto
  rw [memRead_setCond]
  rfl

/-- A walk with COND set in the state it has come to. -/
def Walk.setCond (c : Cond) : Walk → Walk
  | .ended t => .ended (t.setCond c)
  | .goesOn t => .goesOn (t.setCond c)

theorem stringWalk_setCond (chars : Word → List Byte) (n : Nat) (a : Word) (s : State) (c : Cond) :
    stringWalk chars n a (s.setCond c) = (stringWalk chars n a s).setCond c := by
  induction n generalizing a s with
  | zero => rfl
  | succ n ih =>
    rw [stringWalk_succ, stringWalk_succ, memRead_setCond]
    split
    · rfl
    · exact ih (a + 1) (writeBytes (chars (memRead a s).1) (memRead a s).2)

theorem putString_setCond (r : StringRoutine) (s : State) (c : Cond) :
    putString r (s.setCond c) = (putString r s).setCond c := by
  unfold putString
  rw [State.setCond_reg, stringWalk_setCond]
  cases stringWalk (stringChars r) passReads (s.reg .r0) s <;> rfl

/-- `ReadByte()` keeps COND or sets it from the byte, so with COND forgotten it does the same. -/
theorem readByteThen_setCond (p : WaitPoint) (s : State) (c d : Cond) :
    (readByteThen p (s.setCond c)).setCond d = (readByteThen p s).setCond d := by
  unfold readByteThen
  rw [State.setCond_con]
  cases s.con.input with
  | nil => rfl
  | cons b rest => cases p <;> rfl

theorem unknownTrap_setCond (w : Word) (s : State) (c : Cond) :
    unknownTrap w (s.setCond c) = (unknownTrap w s).setCond c := by
  unfold unknownTrap
  split <;> rfl

/-- With COND forgotten, the outcome of `f` is the same whatever COND was before. -/
def IgnoresCond (f : State → Host.Outcome State Fault Refusal) : Prop :=
  ∀ s c, forgetCond (f (s.setCond c)) = forgetCond (f s)

/-- What answers the same state with COND carried along ignores COND. -/
theorem ignoresCond_of_setCond {f : State → State} (h : ∀ s c, f (s.setCond c) = (f s).setCond c) :
    IgnoresCond (fun s => .next (f s)) := by
  intro s c
  simp only [forgetCond, h]
  rfl

theorem execGetc_ignoresCond : IgnoresCond execGetc := fun s c =>
  congrArg Host.Outcome.next (readByteThen_setCond .getc (linkReturn s) c .z)

theorem execOut_ignoresCond : IgnoresCond execOut := fun _ _ => rfl

theorem execPuts_ignoresCond : IgnoresCond execPuts :=
  ignoresCond_of_setCond fun s c => putString_setCond .puts (linkReturn s) c

theorem execIn_ignoresCond : IgnoresCond execIn := fun s c =>
  congrArg Host.Outcome.next (readByteThen_setCond .inChar (writeBytes Config.inPrompt (linkReturn s)) c .z)

theorem execPutsp_ignoresCond : IgnoresCond execPutsp :=
  ignoresCond_of_setCond fun s c => putString_setCond .putsp (linkReturn s) c

theorem execHalt_ignoresCond : IgnoresCond execHalt := fun _ _ => rfl

theorem execTrap_ignoresCond (ign : BitVec 4) (v : BitVec 8) : IgnoresCond (execTrap ign v) := by
  unfold execTrap
  split
  · exact execGetc_ignoresCond
  · exact execOut_ignoresCond
  · exact execPuts_ignoresCond
  · exact execIn_ignoresCond
  · exact execPutsp_ignoresCond
  · exact execHalt_ignoresCond
  · exact ignoresCond_of_setCond fun s c => unknownTrap_setCond _ (linkReturn s) c

/-- Settles O52: what no instruction but BR looks at is carried along or overwritten, through the walk of a string by
induction over its reads. -/
theorem onlyBranchReadsCond : Obligations.OnlyBranchReadsCond := by
  unfold Obligations.OnlyBranchReadsCond
  intro i s c notBr
  cases i with
  | br n z p off => exact absurd rfl (notBr n z p off)
  | addReg | addImm | andReg | andImm | not | jmp | jsr | jsrr | lea | st | str | rti | res => rfl
  | ld | ldr => exact congrArg (fun t => forgetCond (.next t)) (loadInto_setCond _ _ s c)
  | ldi dr off =>
    simp only [exec, execLdi, State.setCond_pc, memRead_setCond, loadInto_setCond]
  | sti sr off =>
    simp only [exec, execSti, State.setCond_pc, memRead_setCond]
    rfl
  | getc => exact execGetc_ignoresCond s c
  | out => exact execOut_ignoresCond s c
  | puts => exact execPuts_ignoresCond s c
  | inChar => exact execIn_ignoresCond s c
  | putsp => exact execPutsp_ignoresCond s c
  | halt => exact execHalt_ignoresCond s c
  | trap ign v => exact execTrap_ignoresCond ign v s c

end Sys2Proof.Machine

/-! ## Plain memory accesses and the poll (20_memory.md R41 to R47) -/

namespace Sys2Proof.Machine

/-- A write of cell `a` leaves every byte outside the two of `a` alone. -/
theorem State.setCell_sameMemoryBut (s : State) (a v : Word) : SameMemoryBut [a] s (s.setCell a v) := by
  intro k outside
  obtain ⟨low, high⟩ := outside a (by simp)
  rw [State.setCell_mem, Memory.byteAt_setCell, if_neg low, if_neg high]

/-- Settles O12: the write is one of memory alone, and in memory of the cell alone. -/
theorem memWriteIsPlainStore : Obligations.MemWriteIsPlainStore := by
  unfold Obligations.MemWriteIsPlainStore
  exact fun s a v => ⟨State.cell_setCell_same s a v, fun _ hc => State.cell_setCell_ne s v hc,
    State.setCell_sameMemoryBut s a v, fun _ _ => rfl, rfl, rfl, ⟨rfl, rfl, rfl⟩, rfl⟩

/-- Settles O13: KBDR is one of the addresses other than KBSR. -/
theorem memReadIsPlainButAtKbsr : Obligations.MemReadIsPlainButAtKbsr := by
  unfold Obligations.MemReadIsPlainButAtKbsr
  exact ⟨fun s _ h => memRead_plain h s, memRead_plain kbdrAddr_ne_kbsrAddr⟩

/-- Settles O14, by the definitions in Config. -/
theorem keyboardParameters : Obligations.KeyboardParameters := by
  unfold Obligations.KeyboardParameters
  exact ⟨rfl, rfl, rfl⟩

/-! ### What a read of KBSR leaves -/

theorem pollKeyboard_ready_sameMemoryBut {s : State} (hd : drawKeyAvailable s = true) :
    SameMemoryBut [Config.kbsrAddr, Config.kbdrAddr] s (pollKeyboard s) := by
  intro k outside
  obtain ⟨statusLow, statusHigh⟩ := outside Config.kbsrAddr (by simp)
  obtain ⟨dataLow, dataHigh⟩ := outside Config.kbdrAddr (by simp)
  rw [pollKeyboard_ready_mem hd, Memory.byteAt_setCell, if_neg dataLow, if_neg dataHigh, Memory.byteAt_setCell,
    if_neg statusLow, if_neg statusHigh]

theorem pollKeyboard_idle_sameMemoryBut {s : State} (hd : drawKeyAvailable s = false) :
    SameMemoryBut [Config.kbsrAddr] s (pollKeyboard s) := by
  intro k outside
  obtain ⟨low, high⟩ := outside Config.kbsrAddr (by simp)
  rw [pollKeyboard_idle_mem hd, Memory.byteAt_setCell, if_neg low, if_neg high]

/-- A ready poll leaves `KBSR_READY` in KBSR, the next byte in KBDR, and one byte fewer in the input. -/
theorem pollKeyboard_of_ready {s : State} (hd : drawKeyAvailable s = true) :
    (pollKeyboard s).cell Config.kbsrAddr = Config.kbsrReady ∧
      ((pollKeyboard s).cell Config.kbdrAddr).toNat = (nextByte s).toNat ∧
      (pollKeyboard s).con.input = s.con.input.tail := by
  rcases pollKeyboard_kbsr s with ⟨_, status, input⟩ | ⟨idle, _, _⟩
  · refine ⟨status, ?_, input⟩
    rw [pollKeyboard_kbdr, if_pos hd]
    exact (zeroExtensionKeepsTheNumber (nextByte s)).1
  · cases hd.symm.trans idle

/-- A poll that finds no key leaves 0 in KBSR, and KBDR and the input as they were. -/
theorem pollKeyboard_of_idle {s : State} (hd : drawKeyAvailable s = false) :
    (pollKeyboard s).cell Config.kbsrAddr = 0 ∧
      (pollKeyboard s).cell Config.kbdrAddr = s.cell Config.kbdrAddr ∧
      (pollKeyboard s).con.input = s.con.input := by
  rcases pollKeyboard_kbsr s with ⟨ready, _, _⟩ | ⟨_, status, input⟩
  · cases hd.symm.trans ready
  · exact ⟨status, by rw [pollKeyboard_kbdr, hd]; rfl, input⟩

/-- Settles O15: the read returns what the poll left in KBSR, in the state the poll left. -/
theorem kbsrReadPolls : Obligations.KbsrReadPolls := by
  unfold Obligations.KbsrReadPolls
  simp only [memRead_kbsr]
  refine ⟨fun s b rest hd hi => ?_, fun s hd => ?_, fun s => ?_⟩
  · obtain ⟨status, data, input⟩ := pollKeyboard_of_ready hd
    rw [nextByte_cons hi] at data
    rw [hi] at input
    exact ⟨status, status, data, input, pollKeyboard_ready_sameMemoryBut hd⟩
  · obtain ⟨status, _, input⟩ := pollKeyboard_of_idle hd
    exact ⟨status, status, input, pollKeyboard_idle_sameMemoryBut hd⟩
  · exact ⟨fun r _ => pollKeyboard_reg s r, pollKeyboard_pc s, pollKeyboard_cond s,
      ⟨pollKeyboard_run s, pollKeyboard_fault s, pollKeyboard_pending s⟩, pollKeyboard_output s, pollKeyboard_polls s,
      pollKeyboard_avail s⟩

/-- Settles O16: off KBSR nothing changes, and at KBSR the draw decides; on a ready poll the input's first byte, if it has
one, is the byte taken. -/
theorem pollTakesOneByteOrNone : Obligations.PollTakesOneByteOrNone := by
  unfold Obligations.PollTakesOneByteOrNone
  intro s a
  by_cases ha : a = Config.kbsrAddr
  · subst ha
    rw [memRead_kbsr]
    rcases poll_ready_or_idle s with hd | hd
    · obtain ⟨status, data, input⟩ := pollKeyboard_of_ready hd
      refine .inl ⟨rfl, hd, status, ?_⟩
      cases hi : s.con.input with
      | nil =>
        rw [nextByte_nil hi] at data
        rw [hi] at input
        exact .inr ⟨rfl, input, data⟩
      | cons b rest =>
        rw [nextByte_cons hi] at data
        rw [hi] at input
        exact .inl ⟨b, congrArg (b :: ·) input.symm, data⟩
    · obtain ⟨status, data, input⟩ := pollKeyboard_of_idle hd
      exact .inr (.inl ⟨rfl, hd, status, input, data⟩)
  · exact .inr (.inr ⟨ha, by rw [memRead_plain ha]⟩)

end Sys2Proof.Machine

/-! ## Memory is its cells (20_memory.md R40; log entry 8) -/

namespace Sys2Proof.Machine

theorem lowByte_wordOfBytes (high low : Byte) : lowByte (wordOfBytes high low) = low :=
  BitVec.extractLsb'_append_eq_right

theorem highByte_wordOfBytes (high low : Byte) : highByte (wordOfBytes high low) = high :=
  BitVec.extractLsb'_append_eq_left

theorem Memory.byteAt_low (m : Memory) (a : Word) : Memory.byteAt m (2 * a.toNat) = lowByte (Memory.cell m a) :=
  (lowByte_wordOfBytes _ _).symm

theorem Memory.byteAt_high (m : Memory) (a : Word) : Memory.byteAt m (2 * a.toNat + 1) = highByte (Memory.cell m a) :=
  (highByte_wordOfBytes _ _).symm

/-- Memories with the same cells have the same bytes inside the address space. -/
theorem Memory.byteAt_eq_of_cell_eq {m m' : Memory} (h : ∀ a, Memory.cell m a = Memory.cell m' a) {k : Nat}
    (hk : k < 131072) : Memory.byteAt m k = Memory.byteAt m' k := by
  have number : (BitVec.ofNat 16 (k / 2)).toNat = k / 2 := Nat.mod_eq_of_lt (by omega)
  have half : k = 2 * (BitVec.ofNat 16 (k / 2)).toNat ∨ k = 2 * (BitVec.ofNat 16 (k / 2)).toNat + 1 := by omega
  rcases half with e | e <;> rw [e]
  · rw [byteAt_low, byteAt_low, h]
  · rw [byteAt_high, byteAt_high, h]

/-- A byte address that is not listed reads as 0. -/
theorem Memory.byteAt_of_forall_ne {m : Memory} {k : Nat} (h : ∀ c ∈ m, c.1 ≠ k) : Memory.byteAt m k = 0 := by
  induction m with
  | nil => rfl
  | cons c m ih =>
    rw [Memory.byteAt, if_neg (h c (by simp))]
    exact ih fun d hd => h d (by simp [hd])

/-- The entries of a canonical list are its non-zero bytes: strictly rising addresses list each of them once. -/
theorem Memory.mem_iff_byteAt {m : Memory} (h : Memory.wf m) (k : Nat) (b : Byte) :
    (k, b) ∈ m ↔ Memory.byteAt m k = b ∧ b ≠ 0 := by
  induction m with
  | nil => exact ⟨nofun, fun ⟨zero, nonzero⟩ => absurd zero.symm nonzero⟩
  | cons c m ih =>
    obtain ⟨a, v⟩ := c
    obtain ⟨rising, listed⟩ := h
    obtain ⟨least, rising⟩ := List.pairwise_cons.mp rising
    obtain ⟨-, nonzero⟩ := listed (a, v) (by simp)
    rw [List.mem_cons, ih ⟨rising, fun d hd => listed d (by simp [hd])⟩, Memory.byteAt]
    by_cases hk : a = k
    · subst hk
      have later : Memory.byteAt m a = 0 := byteAt_of_forall_ne fun d hd => (least d hd).ne'
      rw [if_pos rfl, later]
      constructor
      · rintro (e | ⟨zero, hb⟩)
        · cases e
          exact ⟨rfl, nonzero⟩
        · exact absurd zero.symm hb
      · rintro ⟨rfl, _⟩
        exact .inl rfl
    · rw [if_neg hk]
      exact or_iff_right fun e => hk (congrArg Prod.fst e).symm

/-- Canonical memories with the same cells have the same bytes everywhere: beyond the address space they list none. -/
theorem Memory.byteAt_eq_of_wf {m m' : Memory} (hm : Memory.wf m) (hm' : Memory.wf m')
    (h : ∀ a, Memory.cell m a = Memory.cell m' a) (k : Nat) : Memory.byteAt m k = Memory.byteAt m' k := by
  by_cases hk : k < 131072
  · exact byteAt_eq_of_cell_eq h hk
  · have beyond {u : Memory} (hu : Memory.wf u) : Memory.byteAt u k = 0 := by
      obtain ⟨-, listed⟩ := hu
      refine byteAt_of_forall_ne fun c hc e => hk ?_
      rw [← e]
      exact (listed c hc).1
    rw [beyond hm, beyond hm']

/-- Settles O17: the same cells mean the same non-zero bytes, so the same entries, and a strictly rising list is determined
by its entries. -/
theorem canonicalMemoryIsUnique : Obligations.CanonicalMemoryIsUnique := by
  unfold Obligations.CanonicalMemoryIsUnique
  intro m m' hm hm' cells
  have entries (c : Host.Cell) : c ∈ m ↔ c ∈ m' := by
    rw [Memory.mem_iff_byteAt hm, Memory.mem_iff_byteAt hm', Memory.byteAt_eq_of_wf hm hm' cells]
  have irrefl : Std.Irrefl (fun x y : Host.Cell => x.1 < y.1) := ⟨fun _ => lt_irrefl _⟩
  have antisymm : Std.Antisymm (fun x y : Host.Cell => x.1 < y.1) := ⟨fun _ _ h h' => absurd h' h.asymm⟩
  exact hm.1.eq_of_mem_iff hm'.1 entries

end Sys2Proof.Machine

/-! ## A stored word is fetched (20_memory.md R58) -/

namespace Sys2Proof.Machine

/-- A running core that is inside no routine, off KBSR, runs the word in the cell at its pc. -/
theorem step_off_kbsr {s : State} (hr : s.run = .running) (hp : s.pending = none) (hpc : s.pc ≠ Config.kbsrAddr) :
    step s = exec (decode (s.cell s.pc)) (s.setPc (s.pc + 1)) := by
  rcases step_cases s with ⟨ended, _⟩ | ⟨u, _, inside, _⟩ | ⟨_, _, e⟩
  · exact absurd hr ended
  · cases hp.symm.trans inside
  · rw [e, fetch, memRead_plain hpc]

/-- The word of `ST SR, #0` (43_store.md R110). -/
theorem decode_st_zero (sr : Reg) : decode (0x3#4 ++ sr.toBits ++ 0#9) = .st sr 0 := by
  cases sr <;> rfl

theorem pcRelative_zero (pc : Word) : pcRelative pc (0 : BitVec 9) = pc := BitVec.add_zero pc

/-- Settles O50: the store goes to the cell the pc has moved to, and the next step fetches there. -/
theorem storedWordIsFetchedNext : Obligations.StoredWordIsFetchedNext := by
  unfold Obligations.StoredWordIsFetchedNext
  intro s sr hr hp hpc hnext hword
  have stores : step s = .next ((s.setPc (s.pc + 1)).setCell (s.pc + 1) (s.reg sr)) := by
    rw [step_off_kbsr hr hp hpc, hword, decode_st_zero, exec, execSt, State.setPc_pc, pcRelative_zero, State.setPc_reg]
  have fetches := step_off_kbsr (s := (s.setPc (s.pc + 1)).setCell (s.pc + 1) (s.reg sr)) hr hp hnext
  rw [State.setCell_pc, State.setPc_pc, State.cell_setCell_same, BitVec.add_assoc] at fetches
  exact ⟨_, stores, rfl, State.cell_setCell_same _ _ _, fetches⟩

end Sys2Proof.Machine

/-! ## Who writes memory (20_memory.md R43, R49) -/

namespace Sys2Proof.Machine

/-- Memory differs in KBSR and KBDR at most, and there only if a poll was made. -/
structure OnlyPolls (s t : State) : Prop where
  outside : SameMemoryBut [0xFE00, 0xFE02] s t
  quiet : t.con.polls = s.con.polls → SameMemory s t

theorem PortsOnly.onlyPolls {s t : State} (h : PortsOnly s t) : OnlyPolls s t := by
  refine ⟨fun k outside => ?_, fun quiet k => by rw [h.quiet quiet]⟩
  obtain ⟨statusLow, statusHigh⟩ := outside 0xFE00 (by simp)
  obtain ⟨dataLow, dataHigh⟩ := outside 0xFE02 (by simp)
  exact h.byteAt k statusLow statusHigh dataLow dataHigh

/-- What an instruction that stores nothing does to memory, `reads` saying whether it may read it. -/
inductive MemoryUse : Bool → State → State → Prop where
  | none {s t : State} (mem : t.mem = s.mem) (polls : t.con.polls = s.con.polls) : MemoryUse false s t
  | reads {s t : State} (polls : OnlyPolls s t) : MemoryUse true s t

theorem MemoryUse.onlyPolls {reads : Bool} {s t : State} (h : MemoryUse reads s t) : OnlyPolls s t := by
  cases h with
  | none mem => exact ⟨fun k _ => by rw [mem], fun _ k => by rw [mem]⟩
  | reads polls => exact polls

theorem MemoryUse.noPoll {s t : State} (h : MemoryUse false s t) : t.con.polls = s.con.polls ∧ SameMemory s t := by
  cases h with
  | none mem polls => exact ⟨polls, fun k => by rw [mem]⟩

theorem OnlyPolls.writeResult {s t : State} (h : OnlyPolls s t) (r : Reg) (v : Word) : OnlyPolls s (t.writeResult r v) :=
  ⟨h.outside, h.quiet⟩

theorem readByteThen_mem (p : WaitPoint) (s : State) : (readByteThen p s).mem = s.mem := by
  rcases readByteThen_cases p s with ⟨_, e⟩ | ⟨_, _, _, _, e⟩ <;> rw [e]
  exact State.writeResult_mem _ _ _

theorem readByteThen_polls (p : WaitPoint) (s : State) : (readByteThen p s).con.polls = s.con.polls := by
  rcases readByteThen_cases p s with ⟨_, e⟩ | ⟨_, _, _, _, e⟩ <;> rw [e]
  rw [State.writeResult_con]

theorem serviceGetc_memoryUse (s : State) : MemoryUse false s (serviceGetc (linkReturn s)) :=
  .none (readByteThen_mem _ _) (readByteThen_polls _ _)

theorem serviceIn_memoryUse (s : State) : MemoryUse false s (serviceIn (linkReturn s)) :=
  .none (readByteThen_mem _ _) (readByteThen_polls _ _)

theorem putString_memoryUse (r : StringRoutine) (s : State) : MemoryUse true s (putString r (linkReturn s)) := by
  obtain ⟨t, ports, e | e⟩ := putString_ports r (linkReturn s) <;> rw [e] <;>
    exact .reads ⟨ports.onlyPolls.outside, ports.onlyPolls.quiet⟩

theorem unknownTrap_memoryUse (w : Word) (s : State) : MemoryUse false s (unknownTrap w (linkReturn s)) := by
  rcases unknownTrap_cases w (linkReturn s) with ⟨_, e⟩ | ⟨_, e⟩ <;> rw [e] <;> exact .none rfl rfl

theorem readsMemory_unknown (ign : BitVec 4) {v : BitVec 8} (hv : v.toNat < 0x20 ∨ 0x25 < v.toNat) :
    Certificates.readsMemory (.trap ign v) = false := by
  rw [Certificates.readsMemory, Bool.or_eq_false_iff, beq_eq_false_iff_ne, beq_eq_false_iff_ne]
  constructor <;> (rintro rfl; revert hv; decide)

theorem execTrap_memoryUse (ign : BitVec 4) (v : BitVec 8) {s t : State} (h : execTrap ign v s = .next t) :
    MemoryUse (Certificates.readsMemory (.trap ign v)) s t := by
  rcases execTrap_cases ign v s with ⟨rfl, e⟩ | ⟨rfl, e⟩ | ⟨rfl, e⟩ | ⟨rfl, e⟩ | ⟨rfl, e⟩ | ⟨rfl, e⟩ | ⟨hv, e⟩ <;>
    cases e.symm.trans h
  · exact serviceGetc_memoryUse s
  · exact .none rfl rfl
  · exact putString_memoryUse .puts s
  · exact serviceIn_memoryUse s
  · exact putString_memoryUse .putsp s
  · exact .none rfl rfl
  · rw [readsMemory_unknown ign hv]
    exact unknownTrap_memoryUse _ s

/-- Every instruction that answers and stores nothing uses memory as its row of the list says. -/
theorem exec_memoryUse {i : Instr} {s t : State} (h : exec i s = .next t) (noStore : Certificates.stores i = false) :
    MemoryUse (Certificates.readsMemory i) s t := by
  cases i with
  | st | sti | str => cases noStore
  | addReg | addImm | andReg | andImm | not | jmp | jsr | jsrr | lea | out | halt | rti | res =>
    cases h
    exact .none rfl rfl
  | br n z p off =>
    cases h
    split <;> exact .none rfl rfl
  | ld dr | ldr dr =>
    cases h
    exact .reads (((PortsOnly.refl s).memRead _).onlyPolls.writeResult dr _)
  | ldi dr =>
    cases h
    exact .reads ((((PortsOnly.refl s).memRead _).memRead _).onlyPolls.writeResult dr _)
  | getc => cases h; exact serviceGetc_memoryUse s
  | puts => cases h; exact putString_memoryUse .puts s
  | inChar => cases h; exact serviceIn_memoryUse s
  | putsp => cases h; exact putString_memoryUse .putsp s
  | trap ign v => exact execTrap_memoryUse ign v h

/-- Settles O54: a read of memory may poll, and nothing else but a store writes memory. -/
theorem onlyStoresAndPollsWriteMemory : Obligations.OnlyStoresAndPollsWriteMemory := by
  unfold Obligations.OnlyStoresAndPollsWriteMemory
  intro i s t h noStore
  have use := exec_memoryUse h noStore
  obtain ⟨outside, quiet⟩ := use.onlyPolls
  refine ⟨outside, quiet, fun noRead => ?_⟩
  rw [noRead] at use
  exact use.noPoll

end Sys2Proof.Machine

/-! ## Encoding and decoding (30_encoding.md R62 to R69) -/

namespace Sys2Proof

open Certificates

/-! ### Decoding an encoded instruction -/

/-- A register field below bit 12 of an encoded instruction stands in its operand bits. -/
theorem encode_regField (i : Instr) (lo : Nat) (h : lo + 3 ≤ 12) :
    regField (encode i) lo = Reg.ofBits (i.operandBits.extractLsb' lo 3) :=
  congrArg Reg.ofBits (encode_field i lo 3 h)

theorem isServiceVector_eq_false_iff {v : BitVec 8} :
    isServiceVector v = false ↔ v.toNat < 0x20 ∨ 0x25 < v.toNat := by
  simp [isServiceVector, imp_iff_or_not, or_comm]

theorem wf_trap_iff {ign : BitVec 4} {v : BitVec 8} :
    (Instr.trap ign v).wf = true ↔ isServiceVector v = false := by
  rw [Instr.wf, Bool.not_eq_true']

/-- The general TRAP row gives a vector back that no service row takes. -/
theorem decode_encode_trap (ign : BitVec 4) {v : BitVec 8} (h : isServiceVector v = false) :
    decode (encode (.trap ign v)) = .trap ign v := by
  have vector := Machine.encode_trap_vector ign v
  have ignored : (encode (.trap ign v)).extractLsb' 8 4 = ign :=
    (encode_field _ 8 4 (by decide)).trans BitVec.extractLsb'_append_eq_left
  rw [decode_of_trap_opcode (encode_opcode _), decodeTrap_unknown, vector, ignored]
  rwa [vector, ← isServiceVector_eq_false_iff]

/-- Settles O5: the opcode selects the instruction's row, and the layout of its format gives the fields back. -/
theorem decodeOfEncode : Obligations.DecodeOfEncode := by
  unfold Obligations.DecodeOfEncode
  intro i wf
  cases i with
  | addReg d a b | andReg d a b =>
    obtain ⟨hd, ha, mode, hb⟩ := layout_reg d.toBits a.toBits 0#3 b.toBits
    simp [decode, encode_opcode, Instr.opcode, encode_bit, encode_regField, Instr.operandBits, hd, ha, mode, hb,
      -BitVec.getLsbD_eq_getElem]
  | addImm d a imm | andImm d a imm =>
    obtain ⟨hd, ha, mode, himm⟩ := layout_imm d.toBits a.toBits 1#1 imm
    simp [decode, encode_opcode, Instr.opcode, encode_bit, encode_regField, encode_field, Instr.operandBits, hd, ha,
      mode, himm, -BitVec.getLsbD_eq_getElem]
  | not d a =>
    obtain ⟨hd, ha, -, -⟩ := layout_base d.toBits a.toBits 0x3F#6
    simp [decode, encode_opcode, Instr.opcode, encode_regField, Instr.operandBits, hd, ha]
  | jmp b | jsrr b =>
    obtain ⟨-, hb, mode, -⟩ := layout_base 0#3 b.toBits 0#6
    simp [decode, encode_opcode, Instr.opcode, encode_bit, encode_regField, Instr.operandBits, hb, mode,
      -BitVec.getLsbD_eq_getElem]
  | ldr r b off | str r b off =>
    obtain ⟨hr, hb, -, hoff⟩ := layout_base r.toBits b.toBits off
    simp [decode, encode_opcode, Instr.opcode, encode_regField, encode_field, Instr.operandBits, hr, hb, hoff]
  | ld r off | ldi r off | lea r off | st r off | sti r off =>
    obtain ⟨hr, hoff⟩ := layout_pcRel r.toBits off
    simp [decode, encode_opcode, Instr.opcode, encode_regField, encode_field, Instr.operandBits, hr, hoff]
  | br n z p off =>
    obtain ⟨hn, hz, hp, hoff⟩ := layout_br n z p off
    simp [decode, encode_opcode, Instr.opcode, encode_bit, encode_field, Instr.operandBits, hn, hz, hp, hoff,
      -BitVec.getLsbD_eq_getElem]
  | jsr off =>
    obtain ⟨mode, hoff⟩ := layout_jsr 1#1 off
    simp [decode, encode_opcode, Instr.opcode, encode_bit, encode_field, Instr.operandBits, mode, hoff,
      -BitVec.getLsbD_eq_getElem]
  | rti low | res low => simp [decode, encode_opcode, Instr.opcode, encode_field, Instr.operandBits]
  | getc | out | puts | inChar | putsp | halt => rfl
  | trap ign v => exact decode_encode_trap ign (wf_trap_iff.mp wf)

/-- Settles O4, by evaluation of each word. -/
theorem sampleWordsDecode : Obligations.SampleWordsDecode := by
  unfold Obligations.SampleWordsDecode
  decide

/-! ### Words that agree under a mask -/

/-- `x` and `y` agree on every bit that is set in `m`. -/
def AgreeOn {n : Nat} (m x y : BitVec n) : Prop := x &&& m = y &&& m

section
variable {n k : Nat}

theorem AgreeOn.of_eq {m x y : BitVec n} (h : x = y) : AgreeOn m x y := congrArg (· &&& m) h

theorem AgreeOn.refl (m x : BitVec n) : AgreeOn m x x := rfl

theorem AgreeOn.symm {m x y : BitVec n} (h : AgreeOn m x y) : AgreeOn m y x := Eq.symm h

/-- Agreement on every bit is equality. -/
theorem AgreeOn.eq {x y : BitVec n} (h : AgreeOn (BitVec.allOnes n) x y) : x = y := by
  rwa [AgreeOn, BitVec.and_allOnes, BitVec.and_allOnes] at h

/-- Under the empty mask any two agree. -/
theorem AgreeOn.none (x y : BitVec n) : AgreeOn 0#n x y := by
  rw [AgreeOn, BitVec.and_zero, BitVec.and_zero]

theorem AgreeOn.append {m x y : BitVec n} {m' x' y' : BitVec k} (h : AgreeOn m x y) (h' : AgreeOn m' x' y') :
    AgreeOn (m ++ m') (x ++ x') (y ++ y') := by
  rw [AgreeOn, BitVec.and_append, BitVec.and_append, h, h']

end

/-! ### The fields of a word, put together again: the layouts of R64 read from the word -/

/-- A bit is a field of width 1. -/
theorem extractLsb'_one (w : Word) (j : Nat) : w.extractLsb' j 1 = BitVec.ofBool (bitField w j) := by
  ext k hk
  simp [bitField, show k = 0 by omega]

theorem regField_toBits (w : Word) (lo : Nat) : (regField w lo).toBits = w.extractLsb' lo 3 := Reg.toBits_ofBits _

theorem opcode_append_operands (w : Word) : w.extractLsb' 12 4 ++ w.extractLsb' 0 12 = w := by
  simp only [BitVec.extractLsb'_append_extractLsb'_eq_extractLsb', BitVec.extractLsb'_eq_self]

theorem fields_pcRel (w : Word) : (regField w 9).toBits ++ w.extractLsb' 0 9 = w.extractLsb' 0 12 := by
  simp only [regField_toBits, BitVec.extractLsb'_append_extractLsb'_eq_extractLsb']

theorem fields_base (w : Word) :
    (regField w 9).toBits ++ (regField w 6).toBits ++ w.extractLsb' 0 6 = w.extractLsb' 0 12 := by
  simp only [regField_toBits, BitVec.extractLsb'_append_extractLsb'_eq_extractLsb']

theorem fields_reg (w : Word) :
    (regField w 9).toBits ++ (regField w 6).toBits ++ w.extractLsb' 3 3 ++ (regField w 0).toBits =
      w.extractLsb' 0 12 := by
  simp only [regField_toBits, BitVec.extractLsb'_append_extractLsb'_eq_extractLsb']

theorem fields_imm {w : Word} (mode : bitField w 5 = true) :
    (regField w 9).toBits ++ (regField w 6).toBits ++ 1#1 ++ w.extractLsb' 0 5 = w.extractLsb' 0 12 := by
  have flag : 1#1 = w.extractLsb' 5 1 := by rw [extractLsb'_one, mode]; rfl
  simp only [flag, regField_toBits, BitVec.extractLsb'_append_extractLsb'_eq_extractLsb']

theorem fields_br (w : Word) :
    BitVec.ofBool (bitField w 11) ++ BitVec.ofBool (bitField w 10) ++ BitVec.ofBool (bitField w 9) ++
      w.extractLsb' 0 9 = w.extractLsb' 0 12 := by
  simp only [← extractLsb'_one, BitVec.extractLsb'_append_extractLsb'_eq_extractLsb']

theorem fields_jsr {w : Word} (mode : bitField w 11 = true) : 1#1 ++ w.extractLsb' 0 11 = w.extractLsb' 0 12 := by
  have flag : 1#1 = w.extractLsb' 11 1 := by rw [extractLsb'_one, mode]; rfl
  simp only [flag, BitVec.extractLsb'_append_extractLsb'_eq_extractLsb']

theorem fields_trap (w : Word) : w.extractLsb' 8 4 ++ w.extractLsb' 0 8 = w.extractLsb' 0 12 := by
  simp only [BitVec.extractLsb'_append_extractLsb'_eq_extractLsb']

/-- A 3-bit field whose top bit is clear agrees with 0 there. -/
theorem agreeOn_topBit_clear {w : Word} {lo : Nat} (h : ¬ bitField w (lo + 2) = true) :
    AgreeOn 4#3 0#3 (w.extractLsb' lo 3) := by
  have top : (w.extractLsb' lo 3).getLsbD 2 = false := by
    simpa [BitVec.getLsbD_extractLsb', bitField] using h
  generalize w.extractLsb' lo 3 = v at top
  revert v
  unfold AgreeOn
  decide

/-- The operand bits of a TRAP word are those of its vector, but for the ignored bits 11:8. -/
theorem agreeOn_vector {w : Word} {v : Nat} (hv : (w.extractLsb' 0 8).toNat = v) :
    AgreeOn 0x0FF#12 (0#4 ++ BitVec.ofNat 8 v) (w.extractLsb' 0 12) := by
  have vector : BitVec.ofNat 8 v = w.extractLsb' 0 8 := by rw [← hv, BitVec.ofNat_toNat, BitVec.setWidth_eq]
  rw [vector, ← fields_trap]
  exact (AgreeOn.none _ _).append (.refl 0xFF#8 _)

/-- What agrees with a word's operand bits, put behind its opcode, agrees with the word. -/
theorem agreeOn_word {m d : BitVec 12} {o : BitVec 4} {w : Word} (ho : o = w.extractLsb' 12 4)
    (h : AgreeOn m d (w.extractLsb' 0 12)) : AgreeOn (0xF#4 ++ m) (o ++ d) w := by
  have parts := (AgreeOn.of_eq (m := 0xF#4) ho).append h
  rwa [opcode_append_operands] at parts

/-! ### Encoding what a word decodes to -/

theorem decodeTrap_wf (w : Word) : (decodeTrap w).wf = true := by
  fun_cases decodeTrap w
  case case7 =>
    simp only [imp_false] at *
    rw [wf_trap_iff, isServiceVector_eq_false_iff]
    omega
  all_goals rfl

theorem decode_wf (w : Word) : (decode w).wf = true := by
  fun_cases decode w
  case case19 => exact decodeTrap_wf w
  all_goals rfl

/-- An instruction with the word's opcode and operand bits is the word's own. -/
theorem encode_eq {w : Word} {i : Instr} (ho : (w.extractLsb' 12 4).toNat = i.opcode.toNat)
    (h : i.operandBits = w.extractLsb' 0 12) : encode i = w := by
  rw [encode, h, BitVec.eq_of_toNat_eq ho.symm, opcode_append_operands]

/-- An instruction with the word's opcode whose operand bits agree with the word's under `m` agrees with it there. -/
theorem encode_agreeOn (m : BitVec 12) {w : Word} {i : Instr} (ho : (w.extractLsb' 12 4).toNat = i.opcode.toNat)
    (h : AgreeOn m i.operandBits (w.extractLsb' 0 12)) : AgreeOn (0xF#4 ++ m) (encode i) w :=
  agreeOn_word (BitVec.eq_of_toNat_eq ho.symm) h

theorem encode_decodeTrap_agreeOn {w : Word} (ho : (w.extractLsb' 12 4).toNat = 15) :
    AgreeOn (usedBits (decodeTrap w)) (encode (decodeTrap w)) w := by
  fun_cases decodeTrap w with
  | case1 hv | case2 hv | case3 hv | case4 hv | case5 hv | case6 hv =>
    exact encode_agreeOn 0x0FF#12 ho (agreeOn_vector hv)
  | case7 => exact .of_eq (encode_eq ho (fields_trap w))

/-- The cases stand in the order of `decode`'s arms. A format without `x` bits gives the whole word back; for the others
the mask is written field by field. -/
theorem encode_decode_agreeOn (w : Word) : AgreeOn (usedBits (decode w)) (encode (decode w)) w := by
  fun_cases decode w with
  | case1 ho => exact .of_eq (encode_eq ho (fields_br w))
  -- ADD and AND
  | case2 ho mode | case8 ho mode => exact .of_eq (encode_eq ho (fields_imm mode))
  | case3 ho mode | case9 ho mode =>
    refine encode_agreeOn (7#3 ++ 7#3 ++ 4#3 ++ 7#3) ho ?_
    rw [← fields_reg]
    exact (((AgreeOn.refl _ _).append (.refl _ _)).append (agreeOn_topBit_clear mode)).append (.refl _ _)
  -- LD, ST, LDI, STI, LEA
  | case4 ho | case5 ho | case14 ho | case15 ho | case18 ho => exact .of_eq (encode_eq ho (fields_pcRel w))
  -- JSR, JSRR
  | case6 ho mode => exact .of_eq (encode_eq ho (fields_jsr mode))
  | case7 ho mode =>
    refine encode_agreeOn (4#3 ++ 7#3 ++ 0#6) ho ?_
    rw [← fields_base, regField_toBits w 9]
    exact ((agreeOn_topBit_clear mode).append (.refl _ _)).append (.none _ _)
  -- LDR, STR
  | case10 ho | case11 ho => exact .of_eq (encode_eq ho (fields_base w))
  -- RTI, RES
  | case12 ho | case17 ho => exact .of_eq (encode_eq ho rfl)
  -- NOT
  | case13 ho =>
    refine encode_agreeOn (7#3 ++ 7#3 ++ 0#6) ho ?_
    rw [← fields_base]
    exact ((AgreeOn.refl _ _).append (.refl _ _)).append (.none _ _)
  -- JMP
  | case16 ho =>
    refine encode_agreeOn (0#3 ++ 7#3 ++ 0#6) ho ?_
    rw [← fields_base]
    exact ((AgreeOn.none _ _).append (.refl _ _)).append (.none _ _)
  | case19 =>
    simp only [imp_false] at *
    exact encode_decodeTrap_agreeOn (by omega)

/-- Settles O6: the fields that decoding cuts out of a word are put together again by encoding. -/
theorem encodeOfDecodeKeepsUsedBits : Obligations.EncodeOfDecodeKeepsUsedBits := by
  unfold Obligations.EncodeOfDecodeKeepsUsedBits
  exact fun w => ⟨decode_wf w, encode_decode_agreeOn w⟩

/-! ### The rows of the table -/

theorem covers_iff {r : Row} {w : Word} : r.covers w = true ↔ w &&& r.mask = r.value := beq_iff_eq

/-- The values of two rows agree on the bits that both fix. -/
def Overlap (r q : Row) : Prop := r.value &&& q.mask = q.value &&& r.mask

theorem Overlap.symm {r q : Row} (h : Overlap r q) : Overlap q r := Eq.symm h

theorem overlap_of_covers {r q : Row} {w : Word} (hr : r.covers w = true) (hq : q.covers w = true) : Overlap r q := by
  rw [covers_iff] at hr hq
  rw [Overlap, ← hr, ← hq, BitVec.and_assoc, BitVec.and_assoc, BitVec.and_comm r.mask]

/-- Of two rows that overlap, the later is the general TRAP row and the earlier one of the six service rows. -/
theorem rows_overlap_only_in_trap :
    rows.Pairwise fun r q => Overlap r q →
      q.format = "TRAP" ∧ r.mask = 0xF0FF ∧ isServiceVector (r.value.extractLsb' 0 8) = true := by
  unfold Overlap
  decide

/-- The word is one of the table's row of that name. -/
def InRow (name : String) (w : Word) : Prop :=
  ∃ r, rows.find? (fun r => r.format == name) = some r ∧ r.value &&& r.mask = r.value ∧ AgreeOn r.mask r.value w

/-- A word in terms of its opcode's number, and of what its operand bits agree with. -/
theorem agreeOn_opcode (m v : BitVec 12) {w : Word} {k : Nat} (ho : (w.extractLsb' 12 4).toNat = k)
    (h : AgreeOn m v (w.extractLsb' 0 12)) : AgreeOn (0xF#4 ++ m) (BitVec.ofNat 4 k ++ v) w :=
  agreeOn_word (by rw [← ho, BitVec.ofNat_toNat, BitVec.setWidth_eq]) h

theorem agreeOn_bit5_set {w : Word} (mode : bitField w 5 = true) :
    AgreeOn (0#3 ++ 0#3 ++ 1#1 ++ 0#5) 0x020#12 (w.extractLsb' 0 12) := by
  rw [← fields_imm mode]
  exact (((AgreeOn.none 0#3 _).append (.none 0#3 _)).append (.refl _ 1#1)).append (.none 0#5 _)

theorem agreeOn_bit5_clear {w : Word} (mode : ¬ bitField w 5 = true) :
    AgreeOn (0#3 ++ 0#3 ++ 4#3 ++ 0#3) 0x000#12 (w.extractLsb' 0 12) := by
  rw [← fields_reg]
  exact (((AgreeOn.none 0#3 _).append (.none 0#3 _)).append (agreeOn_topBit_clear mode)).append (.none 0#3 _)

theorem agreeOn_bit11_set {w : Word} (mode : bitField w 11 = true) :
    AgreeOn (1#1 ++ 0#11) 0x800#12 (w.extractLsb' 0 12) := by
  rw [← fields_jsr mode]
  exact (AgreeOn.refl _ 1#1).append (.none 0#11 _)

theorem agreeOn_bit11_clear {w : Word} (mode : ¬ bitField w 11 = true) :
    AgreeOn (4#3 ++ 0#9) 0x000#12 (w.extractLsb' 0 12) := by
  rw [← fields_pcRel, regField_toBits]
  exact (agreeOn_topBit_clear mode).append (.none 0#9 _)

theorem decodeTrap_inRow {w : Word} (ho : (w.extractLsb' 12 4).toNat = 15) : InRow (rowName (decodeTrap w)) w := by
  fun_cases decodeTrap w with
  | case1 hv | case2 hv | case3 hv | case4 hv | case5 hv | case6 hv =>
    exact ⟨_, rfl, rfl, agreeOn_opcode 0x0FF _ ho (agreeOn_vector hv)⟩
  | case7 => exact ⟨_, rfl, rfl, agreeOn_opcode 0 0 ho (.none _ _)⟩

/-- The cases stand in the order of `decode`'s arms; most rows fix the opcode alone. -/
theorem decode_inRow (w : Word) : InRow (rowName (decode w)) w := by
  fun_cases decode w with
  -- ADD and AND
  | case2 ho mode | case8 ho mode => exact ⟨_, rfl, rfl, agreeOn_opcode _ _ ho (agreeOn_bit5_set mode)⟩
  | case3 ho mode | case9 ho mode => exact ⟨_, rfl, rfl, agreeOn_opcode _ _ ho (agreeOn_bit5_clear mode)⟩
  -- JSR, JSRR
  | case6 ho mode => exact ⟨_, rfl, rfl, agreeOn_opcode _ _ ho (agreeOn_bit11_set mode)⟩
  | case7 ho mode => exact ⟨_, rfl, rfl, agreeOn_opcode _ _ ho (agreeOn_bit11_clear mode)⟩
  | case19 =>
    simp only [imp_false] at *
    exact decodeTrap_inRow (by omega)
  | _ ho => exact ⟨_, rfl, rfl, agreeOn_opcode 0 0 ho (.none _ _)⟩

/-- The row of the decoded instruction covers the word. -/
theorem decode_row_covers (w : Word) : ∃ r ∈ rows, r.format = rowName (decode w) ∧ r.covers w = true := by
  obtain ⟨r, found, fixed, agree⟩ := decode_inRow w
  have name := List.find?_some found
  exact ⟨r, List.mem_of_find?_eq_some found, beq_iff_eq.mp name, covers_iff.mpr (agree.symm.trans fixed)⟩

theorem rowName_eq_trap {i : Instr} (h : rowName i = "TRAP") : ∃ ign v, i = .trap ign v := by
  cases i with
  | trap ign v => exact ⟨ign, v, rfl⟩
  | _ => simp [rowName] at h

/-- A word of the general TRAP row has no service vector. -/
theorem isServiceVector_of_decode_trap {w : Word} (h : rowName (decode w) = "TRAP") :
    isServiceVector (w.extractLsb' 0 8) = false := by
  obtain ⟨ign, v, e⟩ := rowName_eq_trap h
  have wf := decode_wf w
  have agree := encode_decode_agreeOn w
  rw [e] at wf agree
  have whole : encode (.trap ign v) = w := AgreeOn.eq agree
  rw [← whole, Machine.encode_trap_vector]
  exact wf_trap_iff.mp wf

/-- A word of a service row has the row's vector. -/
theorem vector_of_covers {r : Row} {w : Word} (mask : r.mask = 0xF0FF) (h : r.covers w = true) :
    r.value.extractLsb' 0 8 = w.extractLsb' 0 8 := by
  rw [← covers_iff.mp h, mask, BitVec.extractLsb'_and]
  exact BitVec.and_allOnes

/-- A row before that of the decoded instruction does not cover the word: it would be a service row before the general
TRAP row, but the word has no service vector. -/
theorem earlier_row_not_covers {w : Word} {r : Row} {before after : List Row} (split : rows = before ++ r :: after)
    (name : r.format = rowName (decode w)) (hr : r.covers w = true) : ∀ q ∈ before, q.covers w = false := by
  intro q mem
  by_contra hq
  rw [Bool.not_eq_false] at hq
  have pairs := rows_overlap_only_in_trap
  rw [split, List.pairwise_append] at pairs
  obtain ⟨-, -, across⟩ := pairs
  obtain ⟨trap, mask, service⟩ := across q mem r List.mem_cons_self (overlap_of_covers hq hr)
  rw [vector_of_covers mask hq, isServiceVector_of_decode_trap (name.symm.trans trap)] at service
  cases service

/-- Settles O7: the decoded row covers the word and none before it does; two rows that share a word overlap, and of
those the later is the general TRAP row. -/
theorem firstCoveringRowIsDecoded : Obligations.FirstCoveringRowIsDecoded := by
  unfold Obligations.FirstCoveringRowIsDecoded
  constructor
  · intro w
    obtain ⟨r, mem, name, covers⟩ := decode_row_covers w
    obtain ⟨before, after, split⟩ := List.append_of_mem mem
    have first : rows.find? (fun r => r.covers w) = some r :=
      List.find?_eq_some_iff_append.mpr ⟨covers, before, after, split, fun q hq => by
        rw [earlier_row_not_covers split name covers q hq, Bool.not_false]⟩
    rw [first, Option.map_some, name]
  · intro w r hr q hq coversR coversQ rNotTrap qNotTrap
    by_contra differ
    have symmetric : Std.Symm fun r q : Row => Overlap r q → r.format = "TRAP" ∨ q.format = "TRAP" :=
      ⟨fun _ _ h overlap => (h overlap.symm).symm⟩
    have pairs : rows.Pairwise fun r q => Overlap r q → r.format = "TRAP" ∨ q.format = "TRAP" :=
      rows_overlap_only_in_trap.imp fun h overlap => .inr (h overlap).1
    exact (pairs.forall hr hq differ (overlap_of_covers coversR coversQ)).elim rNotTrap qNotTrap

end Sys2Proof

/-! ## The step (30_encoding.md R72) -/

namespace Sys2Proof.Machine

/-- Settles O46: of the ways a step begins, only the fetch is left to a running core inside no routine. -/
theorem stepRunsTheDecodedInstruction : Obligations.StepRunsTheDecodedInstruction := by
  unfold Obligations.StepRunsTheDecodedInstruction
  intro s hr hp
  rcases step_cases s with ⟨ended, _⟩ | ⟨u, _, inside, _⟩ | ⟨_, _, e⟩
  · exact absurd hr ended
  · cases hp.symm.trans inside
  · exact e

/-- Settles O57: `step_forward` says of every step that it answers, whichever way it begins. -/
theorem everyStepAnswers : Obligations.EveryStepAnswers := by
  unfold Obligations.EveryStepAnswers
  intro s
  obtain ⟨t, answers, -⟩ := step_forward s
  exact ⟨t, answers⟩

end Sys2Proof.Machine

/-! ## Operate (40_operate.md R80 to R84) -/

namespace Sys2Proof

/-- A word of opcode 0x1 is an ADD, and bit 5 selects its mode. -/
theorem decode_of_add_opcode {w : Word} (h : w.extractLsb' 12 4 = 0x1) :
    decode w = if bitField w 5 then .addImm (regField w 9) (regField w 6) (w.extractLsb' 0 5)
      else .addReg (regField w 9) (regField w 6) (regField w 0) := by
  unfold decode; rw [h]; rfl

/-- A word of opcode 0x5 is an AND, and bit 5 selects its mode. -/
theorem decode_of_and_opcode {w : Word} (h : w.extractLsb' 12 4 = 0x5) :
    decode w = if bitField w 5 then .andImm (regField w 9) (regField w 6) (w.extractLsb' 0 5)
      else .andReg (regField w 9) (regField w 6) (regField w 0) := by
  unfold decode; rw [h]; rfl

/-- A word of opcode 0x9 is a NOT, whatever its bits 5:0. -/
theorem decode_of_not_opcode {w : Word} (h : w.extractLsb' 12 4 = 0x9) :
    decode w = .not (regField w 9) (regField w 6) := by
  unfold decode; rw [h]; rfl

end Sys2Proof

namespace Sys2Proof.Machine

/-- Writing a result is within the frame of the operate instructions and LEA. -/
theorem writeResult_onlyResult (s : State) (dr : Reg) (v : Word) : OnlyResult dr s (s.writeResult dr v) := by
  refine ⟨State.writeResult_pc s dr v, fun r outside => ?_, ⟨rfl, rfl, rfl⟩, fun _ => rfl, rfl⟩
  exact State.writeResult_reg_ne s v (List.ne_of_not_mem_cons outside)

/-- An instruction that answers by writing the result `v` leaves `v` in its register, the flag of `v` in COND, and all
else as it was. -/
theorem exec_writeResult {i : Instr} {s : State} {dr : Reg} {v : Word} (h : exec i s = .next (s.writeResult dr v)) :
    ∃ t, exec i s = .next t ∧ t.reg dr = v ∧ FlagFor v t.cond ∧ OnlyResult dr s t :=
  ⟨_, h, State.writeResult_reg_same s dr v, flagFor_flagOf v, writeResult_onlyResult s dr v⟩

/-- Settles O18: bit 5 clear selects the register row, and the sum is the result written. -/
theorem addRegisterMode : Obligations.AddRegisterMode := by
  unfold Obligations.AddRegisterMode
  refine ⟨fun w opcode mode => ?_, fun _ _ _ _ => exec_writeResult rfl⟩
  exact (decode_of_add_opcode opcode).trans (if_neg (Bool.eq_false_iff.mp mode))

/-- Settles O19: bit 5 set selects the immediate row, and the sum with the extended field is the result written. -/
theorem addImmediateMode : Obligations.AddImmediateMode := by
  unfold Obligations.AddImmediateMode
  refine ⟨fun w opcode mode => ?_, fun _ _ _ _ => exec_writeResult rfl⟩
  exact (decode_of_add_opcode opcode).trans (if_pos mode)

/-- Settles O20: bit 5 clear selects the register row, and the conjunction is the result written. -/
theorem andRegisterMode : Obligations.AndRegisterMode := by
  unfold Obligations.AndRegisterMode
  refine ⟨fun w opcode mode => ?_, fun _ _ _ _ => exec_writeResult rfl⟩
  exact (decode_of_and_opcode opcode).trans (if_neg (Bool.eq_false_iff.mp mode))

/-- Settles O21: bit 5 set selects the immediate row, and the conjunction with the extended field is the result
written. -/
theorem andImmediateMode : Obligations.AndImmediateMode := by
  unfold Obligations.AndImmediateMode
  refine ⟨fun w opcode mode => ?_, fun _ _ _ _ => exec_writeResult rfl⟩
  exact (decode_of_and_opcode opcode).trans (if_pos mode)

/-- Settles O22: the opcode alone selects the row, and each bit of the complement written is the complement of the
source's. -/
theorem notComplements : Obligations.NotComplements := by
  unfold Obligations.NotComplements
  refine ⟨fun w opcode => decode_of_not_opcode opcode, fun dr sr s => ?_⟩
  obtain ⟨t, answers, result, flag, frame⟩ :=
    exec_writeResult (i := .not dr sr) (s := s) (dr := dr) (v := ~~~ s.reg sr) rfl
  refine ⟨t, answers, fun j hj => ?_, flag, frame⟩
  rw [result, BitVec.getLsbD_not, decide_eq_true hj, Bool.true_and]

end Sys2Proof.Machine

/-! ## Control (41_control.md R90 to R93) -/

namespace Sys2Proof

/-- A word of opcode 0x0 is a BR. -/
theorem decode_of_br_opcode {w : Word} (h : w.extractLsb' 12 4 = 0x0) :
    decode w = .br (bitField w 11) (bitField w 10) (bitField w 9) (w.extractLsb' 0 9) := by
  unfold decode; rw [h]; rfl

/-- A word of opcode 0x4 is a JSR or a JSRR, and bit 11 selects which. -/
theorem decode_of_jsr_opcode {w : Word} (h : w.extractLsb' 12 4 = 0x4) :
    decode w = if bitField w 11 then .jsr (w.extractLsb' 0 11) else .jsrr (regField w 6) := by
  unfold decode; rw [h]; rfl

/-- A word of opcode 0xC is a JMP, whatever its bits 11:9 and 5:0. -/
theorem decode_of_jmp_opcode {w : Word} (h : w.extractLsb' 12 4 = 0xC) : decode w = .jmp (regField w 6) := by
  unfold decode; rw [h]; rfl

end Sys2Proof

namespace Sys2Proof.Machine

/-! ### What a jump and a call leave unchanged -/

/-- An instruction that answers by a jump changes the pc alone. -/
theorem exec_setPc {i : Instr} {s : State} {target : Word} (h : exec i s = .next (s.setPc target)) :
    ∃ t, exec i s = .next t ∧ t.pc = target ∧
      t.cond = s.cond ∧ SameRegsBut [] s t ∧ SameStatus s t ∧ SameMemory s t ∧ SameConsole s t :=
  ⟨_, h, State.setPc_pc s target, State.setPc_cond s target, fun r _ => State.setPc_reg s target r,
    ⟨rfl, rfl, rfl⟩, fun _ => rfl, rfl⟩

/-- An instruction that answers by a call saves the pc in R7, jumps, and changes nothing else. -/
theorem exec_linkReturn_setPc {i : Instr} {s : State} {target : Word}
    (h : exec i s = .next ((linkReturn s).setPc target)) :
    ∃ t, exec i s = .next t ∧ t.reg .r7 = s.pc ∧ t.pc = target ∧
      t.cond = s.cond ∧ SameRegsBut [.r7] s t ∧ SameStatus s t ∧ SameMemory s t ∧ SameConsole s t :=
  ⟨_, h, linkReturn_reg_same s, State.setPc_pc _ target, linkReturn_cond s,
    fun _ outside => linkReturn_reg_ne s (List.ne_of_not_mem_cons outside), ⟨rfl, rfl, rfl⟩, fun _ => rfl, rfl⟩

/-! ### BR -/

/-- BR's test in terms of the flag: the mask bit of the one that is set is set. -/
theorem branchTaken_iff (n z p : Bool) (c : Cond) :
    branchTaken n z p c = true ↔ (n = true ∧ c = .n) ∨ (z = true ∧ c = .z) ∨ (p = true ∧ c = .p) := by
  obtain ⟨-, -, -, test⟩ := condOneHotAndBranchTest
  exact bne_iff_ne.trans (test n z p c)

/-- A BR that is not taken is a jump to the incremented pc. -/
theorem exec_br (n z p : Bool) (off : BitVec 9) (s : State) :
    exec (.br n z p off) s = .next (s.setPc (if branchTaken n z p s.cond then pcRelative s.pc off else s.pc)) :=
  congrArg Host.Outcome.next (apply_ite s.setPc _ (pcRelative s.pc off) s.pc).symm

/-- Settles O23: the opcode selects the row, and BR is a jump whose target its test selects. -/
theorem branchOnCondition : Obligations.BranchOnCondition := by
  unfold Obligations.BranchOnCondition
  refine ⟨fun w opcode => decode_of_br_opcode opcode, fun n z p off s => ?_⟩
  obtain ⟨t, answers, pc, frame⟩ := exec_setPc (exec_br n z p off s)
  rw [← branchTaken_iff]
  exact ⟨t, answers, fun taken => pc.trans (if_pos taken), fun notTaken => pc.trans (if_neg notTaken), frame⟩

/-! ### JMP, JSR and JSRR -/

/-- Settles O24: the opcode alone selects the row, and JMP is a jump to the base register's value. -/
theorem jumpThroughRegister : Obligations.JumpThroughRegister := by
  unfold Obligations.JumpThroughRegister
  exact ⟨fun w opcode => decode_of_jmp_opcode opcode, fun _ _ => exec_setPc rfl⟩

/-- Settles O25: bit 11 set selects the JSR row, and JSR is a call of the pc-relative address. -/
theorem jsrLinksAndJumps : Obligations.JsrLinksAndJumps := by
  unfold Obligations.JsrLinksAndJumps
  refine ⟨fun w opcode mode => ?_, fun _ _ => exec_linkReturn_setPc rfl⟩
  exact (decode_of_jsr_opcode opcode).trans (if_pos mode)

/-- A register after the return address is written: R7 holds it, the others are as they were. -/
theorem linkReturn_reg (s : State) (r : Reg) : (linkReturn s).reg r = if r = .r7 then s.pc else s.reg r := by
  split
  case isTrue h => rw [h, linkReturn_reg_same]
  case isFalse h => exact linkReturn_reg_ne s h

/-- Settles O26: bit 11 clear selects the JSRR row, and JSRR is a call of the value its base has after the link. -/
theorem jsrrLinksThenReadsBase : Obligations.JsrrLinksThenReadsBase := by
  unfold Obligations.JsrrLinksThenReadsBase
  refine ⟨fun w opcode mode => ?_, fun base s => ?_⟩
  · exact (decode_of_jsr_opcode opcode).trans (if_neg (Bool.eq_false_iff.mp mode))
  · rw [← linkReturn_reg]
    exact exec_linkReturn_setPc rfl

end Sys2Proof.Machine

/-! ## Loads (42_load.md R100 to R103) -/

namespace Sys2Proof

/-- A word of opcode 0x2 is an LD. -/
theorem decode_of_ld_opcode {w : Word} (h : w.extractLsb' 12 4 = 0x2) :
    decode w = .ld (regField w 9) (w.extractLsb' 0 9) := by
  unfold decode; rw [h]; rfl

/-- A word of opcode 0xA is an LDI. -/
theorem decode_of_ldi_opcode {w : Word} (h : w.extractLsb' 12 4 = 0xA) :
    decode w = .ldi (regField w 9) (w.extractLsb' 0 9) := by
  unfold decode; rw [h]; rfl

/-- A word of opcode 0x6 is an LDR. -/
theorem decode_of_ldr_opcode {w : Word} (h : w.extractLsb' 12 4 = 0x6) :
    decode w = .ldr (regField w 9) (regField w 6) (w.extractLsb' 0 6) := by
  unfold decode; rw [h]; rfl

/-- A word of opcode 0xE is an LEA. -/
theorem decode_of_lea_opcode {w : Word} (h : w.extractLsb' 12 4 = 0xE) :
    decode w = .lea (regField w 9) (w.extractLsb' 0 9) := by
  unfold decode; rw [h]; rfl

end Sys2Proof

namespace Sys2Proof.Machine

/-! ### What a load changes -/

/-- `t` is `s` with the value `read.1` in `dr` and its flag in COND, and with the memory and the console of `read.2`:
`s` after a load whose last `MemRead` gave `read`. -/
structure Loads (dr : Reg) (read : Word × State) (s t : State) : Prop where
  value : t.reg dr = read.1
  flag : FlagFor read.1 t.cond
  pc : t.pc = s.pc
  regs : SameRegsBut [dr] s t
  status : SameStatus s t
  memory : SameMemory read.2 t
  console : SameConsole read.2 t

/-- `loadInto` is a load in this sense from the instruction's own state, whatever reads came before its own. -/
theorem loadInto_loads {s u : State} (ports : PortsOnly s u) (dr : Reg) (ea : Word) :
    Loads dr (memRead ea u) s (loadInto dr ea u) where
  value := loadInto_reg_same dr ea u
  flag := flagFor_flagOf _
  pc := (loadInto_pc dr ea u).trans ports.pc
  regs := fun r outside => (loadInto_reg_ne ea u (List.ne_of_not_mem_cons outside)).trans (ports.reg r)
  status := ⟨(loadInto_run dr ea u).trans ports.run, (loadInto_fault dr ea u).trans ports.fault,
    (loadInto_pending dr ea u).trans ports.pending⟩
  memory := fun _ => rfl
  console := rfl

/-- A load whose reads polled nothing gives the cell's value and leaves memory and the console as they were. -/
theorem Loads.plain {dr : Reg} {read : Word × State} {s t : State} {a : Word} (h : Loads dr read s t)
    (noPoll : read = (s.cell a, s)) : t.reg dr = s.cell a ∧ SameMemory s t ∧ SameConsole s t := by
  subst noPoll
  exact ⟨h.value, h.memory, h.console⟩

/-- An instruction that answers by loading from `ea` in its own state changes what LD and LDR may change; off KBSR the
read is plain. -/
theorem exec_loadInto {i : Instr} {s : State} {dr : Reg} {ea : Word} (h : exec i s = .next (loadInto dr ea s)) :
    ∃ t, exec i s = .next t ∧ t.reg dr = (memRead ea s).1 ∧ FlagFor (t.reg dr) t.cond ∧
      t.pc = s.pc ∧ SameRegsBut [dr] s t ∧ SameStatus s t ∧
      SameMemory (memRead ea s).2 t ∧ SameConsole (memRead ea s).2 t ∧
      (ea ≠ Config.kbsrAddr → t.reg dr = s.cell ea ∧ SameMemory s t ∧ SameConsole s t) := by
  have loads := loadInto_loads (PortsOnly.refl s) dr ea
  have flag : FlagFor ((loadInto dr ea s).reg dr) (loadInto dr ea s).cond := loads.value ▸ loads.flag
  exact ⟨_, h, loads.value, flag, loads.pc, loads.regs, loads.status, loads.memory, loads.console,
    fun offKbsr => loads.plain (memRead_plain offKbsr s)⟩

/-! ### LD, LDR and LEA -/

/-- Settles O27: the opcode selects the row, and LD is a load from the pc-relative address. -/
theorem loadPcRelative : Obligations.LoadPcRelative := by
  unfold Obligations.LoadPcRelative
  exact ⟨fun w opcode => decode_of_ld_opcode opcode, fun _ _ _ => exec_loadInto rfl⟩

/-- Settles O30: the opcode selects the row, and LDR is a load from an address summed before the register is written. -/
theorem loadBasePlusOffset : Obligations.LoadBasePlusOffset := by
  unfold Obligations.LoadBasePlusOffset
  exact ⟨fun w opcode => decode_of_ldr_opcode opcode, fun _ _ _ _ => exec_loadInto rfl⟩

/-- Settles O31: the opcode selects the row, and the pc-relative address is itself the result written. -/
theorem loadEffectiveAddress : Obligations.LoadEffectiveAddress := by
  unfold Obligations.LoadEffectiveAddress
  exact ⟨fun w opcode => decode_of_lea_opcode opcode, fun _ _ _ => exec_writeResult rfl⟩

/-! ### LDI -/

/-- Settles O28: LDI is a load in the state its pointer read leaves; off KBSR both reads are plain. -/
theorem loadIndirect : Obligations.LoadIndirect := by
  unfold Obligations.LoadIndirect
  refine ⟨fun w opcode => decode_of_ldi_opcode opcode, fun dr off s => ?_⟩
  have pointerRead := (PortsOnly.refl s).memRead (pcRelative s.pc off)
  have loads := loadInto_loads pointerRead dr (memRead (pcRelative s.pc off) s).1
  refine ⟨_, _, _, rfl, rfl, rfl, loads.value, loads.flag, loads.pc, loads.regs, loads.status, loads.memory,
    loads.console, fun pointerOff dataOff => loads.plain ?_⟩
  have pointer : memRead (pcRelative s.pc off) s = (s.cell (pcRelative s.pc off), s) := memRead_plain pointerOff s
  rw [pointer]
  exact memRead_plain dataOff s

/-- A poll leaves `KBSR_READY` or 0 in KBSR, and neither is KBSR's own address. -/
theorem memRead_kbsr_value_ne_kbsrAddr (s : State) : (memRead Config.kbsrAddr s).1 ≠ Config.kbsrAddr := by
  rw [memRead_kbsr]
  rcases pollKeyboard_kbsr s with ⟨_, status, _⟩ | ⟨_, status, _⟩
  · exact status.trans_ne (by decide)
  · exact status.trans_ne (by decide)

/-- Reading through a pointer leaves the state one read leaves: a pointer read that polls gives no pointer to KBSR. -/
theorem memRead_through_pointer_state (a : Word) (s : State) :
    ∃ b, (memRead (memRead a s).1 (memRead a s).2).2 = (memRead b s).2 := by
  by_cases polls : a = Config.kbsrAddr
  case pos =>
    subst polls
    exact ⟨_, by rw [memRead_plain (memRead_kbsr_value_ne_kbsrAddr s)]⟩
  case neg => exact ⟨s.cell a, by rw [memRead_plain polls]⟩

/-- One read polls at most once, and takes at most one byte, from the front of the input. -/
theorem memRead_polls_at_most_once (a : Word) (s : State) :
    (memRead a s).2.con.polls ≤ s.con.polls + 1 ∧
      ∃ taken, s.con.input = taken ++ (memRead a s).2.con.input ∧ taken.length ≤ 1 := by
  rcases memRead_state a s with ⟨_, plain⟩ | ⟨_, polled⟩
  · rw [plain]
    exact ⟨Nat.le_succ _, [], rfl, Nat.zero_le 1⟩
  · rw [polled]
    exact ⟨(pollKeyboard_polls s).le, pollKeyboard_input s⟩

/-- Settles O29: the console LDI leaves is the one its two reads leave, and that is the console of one read. -/
theorem ldiPollsAtMostOnce : Obligations.LdiPollsAtMostOnce := by
  unfold Obligations.LdiPollsAtMostOnce
  intro dr off s
  refine ⟨_, rfl, ?_⟩
  obtain ⟨b, oneRead⟩ := memRead_through_pointer_state (pcRelative s.pc off) s
  rw [loadInto_con, oneRead]
  exact memRead_polls_at_most_once b s

end Sys2Proof.Machine

/-! ## Stores (43_store.md R110 to R112) -/

namespace Sys2Proof

/-- A word of opcode 0x3 is an ST. -/
theorem decode_of_st_opcode {w : Word} (h : w.extractLsb' 12 4 = 0x3) :
    decode w = .st (regField w 9) (w.extractLsb' 0 9) := by
  unfold decode; rw [h]; rfl

/-- A word of opcode 0xB is an STI. -/
theorem decode_of_sti_opcode {w : Word} (h : w.extractLsb' 12 4 = 0xB) :
    decode w = .sti (regField w 9) (w.extractLsb' 0 9) := by
  unfold decode; rw [h]; rfl

/-- A word of opcode 0x7 is an STR. -/
theorem decode_of_str_opcode {w : Word} (h : w.extractLsb' 12 4 = 0x7) :
    decode w = .str (regField w 9) (regField w 6) (w.extractLsb' 0 6) := by
  unfold decode; rw [h]; rfl

end Sys2Proof

namespace Sys2Proof.Machine

/-! ### ST and STR -/

/-- An instruction that answers by storing in its own state changes the cell stored to and nothing else. -/
theorem exec_setCell {i : Instr} {s : State} {a v : Word} (h : exec i s = .next (s.setCell a v)) :
    ∃ t, exec i s = .next t ∧ t.cell a = v ∧ SameMemoryBut [a] s t ∧
      t.pc = s.pc ∧ t.cond = s.cond ∧ SameRegsBut [] s t ∧ SameStatus s t ∧ SameConsole s t := by
  obtain ⟨cell, -, memory, regs, pc, cond, status, console⟩ := memWriteIsPlainStore s a v
  exact ⟨_, h, cell, memory, pc, cond, regs, status, console⟩

/-- Settles O32: the opcode selects the row, and ST is a store at the pc-relative address. -/
theorem storePcRelative : Obligations.StorePcRelative := by
  unfold Obligations.StorePcRelative
  exact ⟨fun w opcode => decode_of_st_opcode opcode, fun _ _ _ => exec_setCell rfl⟩

/-- Settles O34: the opcode selects the row, and STR is a store at the base register's value plus the offset. -/
theorem storeBasePlusOffset : Obligations.StoreBasePlusOffset := by
  unfold Obligations.StoreBasePlusOffset
  exact ⟨fun w opcode => decode_of_str_opcode opcode, fun _ _ _ _ => exec_setCell rfl⟩

/-! ### STI -/

/-- Settles O33: STI is a store in the state its pointer read leaves; off KBSR that is its own state. -/
theorem storeIndirect : Obligations.StoreIndirect := by
  unfold Obligations.StoreIndirect
  refine ⟨fun w opcode => decode_of_sti_opcode opcode, fun sr off s => ?_⟩
  have pointerRead := (PortsOnly.refl s).memRead (pcRelative s.pc off)
  obtain ⟨cell, -, memory, -, -, -, -, console⟩ :=
    memWriteIsPlainStore (memRead (pcRelative s.pc off) s).2 (memRead (pcRelative s.pc off) s).1 (s.reg sr)
  refine ⟨_, _, rfl, rfl, cell, memory, console, pointerRead.pc, pointerRead.cond, fun r _ => pointerRead.reg r,
    ⟨pointerRead.run, pointerRead.fault, pointerRead.pending⟩, fun offKbsr => ?_⟩
  have pointer : memRead (pcRelative s.pc off) s = (s.cell (pcRelative s.pc off), s) := memRead_plain offKbsr s
  rw [pointer] at cell memory console ⊢
  exact ⟨cell, memory, console⟩

end Sys2Proof.Machine

/-! ## TRAP (44_trap.md R120 to R129) -/

namespace Sys2Proof

/-- A TRAP word with a service vector decodes as the word of that vector with bits 11:8 clear. -/
theorem decode_of_service_vector {w : Word} {v : BitVec 8} (opcode : w.extractLsb' 12 4 = 0xF)
    (vector : w.extractLsb' 0 8 = v) (service : isServiceVector v = true) : decode w = decode (0xF#4 ++ 0#4 ++ v) := by
  rw [decode_of_trap_opcode opcode, decodeTrap, vector]
  have number : v = 0x20 ∨ v = 0x21 ∨ v = 0x22 ∨ v = 0x23 ∨ v = 0x24 ∨ v = 0x25 := by
    clear vector; revert v; decide
  rcases number with rfl | rfl | rfl | rfl | rfl | rfl <;> rfl

end Sys2Proof

namespace Sys2Proof.Machine

open Certificates (LoopOutcome NoEndInSight)

/-- A state with the registers of `linkReturn s` has `s`'s pc in R7 and `s`'s other registers. -/
theorem link_of_regs {s t : State} (h : t.regs = (linkReturn s).regs) :
    t.reg .r7 = s.pc ∧ SameRegsBut [.r7] s t := by
  have same (r : Reg) : t.reg r = (linkReturn s).reg r := congrArg (fun f => Regs.get f r) h
  exact ⟨(same .r7).trans (linkReturn_reg_same s),
    fun r outside => (same r).trans (linkReturn_reg_ne s (List.ne_of_not_mem_cons outside))⟩

/-! ### GETC and IN -/

/-- What a routine writes once it has read `b`: IN echoes it and flushes. -/
def WaitPoint.echo : WaitPoint → Byte → List OutEvent
  | .getc, _ => []
  | .inChar, b => [.byte b, .flush]

/-- With a byte delivered `ReadByte()` takes it, and the routine echoes it, writes it to R0 and sets the flag. -/
theorem readByteThen_cons {s : State} {b : Byte} {rest : List Byte} (p : WaitPoint) (hi : s.con.input = b :: rest) :
    readByteThen p s =
      ({ s with
          pending := none
          con := { s.con with input := rest, output := s.con.output ++ p.echo b } } : State).writeResult .r0 (zext8 b) := by
  unfold readByteThen
  rw [hi]
  cases p with
  | getc => rw [WaitPoint.echo, List.append_nil]; rfl
  | inChar => simp only [finishRead, WaitPoint.echo, flush, writeBytes, State.emit, List.append_assoc]; rfl

theorem State.emit_nil (s : State) : s.emit [] = s := by rw [State.emit, List.append_nil]

section

variable {i : Instr} {p : WaitPoint} {s : State} {es : List OutEvent}

/-- An instruction that writes R7 and then `es`, and then reads, completes if a byte is there. -/
theorem exec_readByteThen_cons (h : exec i s = .next (readByteThen p ((linkReturn s).emit es))) {b : Byte}
    {rest : List Byte} (hi : s.con.input = b :: rest) :
    ∃ t, exec i s = .next t ∧ (t.reg .r0).toNat = b.toNat ∧ FlagFor (t.reg .r0) t.cond ∧ t.reg .r7 = s.pc ∧
      SameRegsBut [.r0, .r7] s t ∧ t.pc = s.pc ∧ t.run = s.run ∧ t.fault = s.fault ∧ t.pending = none ∧
      SameMemory s t ∧ t.con = { s.con with input := rest, output := s.con.output ++ es ++ p.echo b } := by
  rw [readByteThen_cons (s := (linkReturn s).emit es) p hi] at h
  obtain ⟨number, -⟩ := zeroExtensionKeepsTheNumber b
  refine ⟨_, h, ?_, writeResult_flagFor _ _ _, ?_, fun r outside => ?_, rfl, rfl, rfl, rfl, fun _ => rfl, rfl⟩
  · rw [State.writeResult_reg_same, number]
  · rw [State.writeResult_reg_ne _ _ (by decide)]
    exact linkReturn_reg_same s
  · obtain ⟨h0, h7⟩ : r ≠ .r0 ∧ r ≠ .r7 := by simpa using outside
    exact (State.writeResult_reg_ne _ _ h0).trans (linkReturn_reg_ne s h7)

/-- With none it waits, R7 and `es` written and nothing else. -/
theorem exec_readByteThen_nil (h : exec i s = .next (readByteThen p ((linkReturn s).emit es)))
    (hi : s.con.input = []) :
    ∃ t, exec i s = .next t ∧ t.pending = some (.reading p) ∧ t.reg .r7 = s.pc ∧ SameRegsBut [.r7] s t ∧
      t.cond = s.cond ∧ t.pc = s.pc ∧ t.run = s.run ∧ t.fault = s.fault ∧ SameMemory s t ∧
      t.con = { s.con with output := s.con.output ++ es } := by
  rw [readByteThen_nil (s := (linkReturn s).emit es) p hi] at h
  obtain ⟨link, regs⟩ := link_of_regs (s := s) (t := { (linkReturn s).emit es with pending := some (.reading p) }) rfl
  exact ⟨_, h, rfl, link, regs, rfl, rfl, rfl, rfl, fun _ => rfl, rfl⟩

end

theorem exec_getc (s : State) : exec .getc s = .next (readByteThen .getc ((linkReturn s).emit [])) := by
  rw [State.emit_nil]
  rfl

/-- Settles O35: GETC links and reads, with nothing written before and no echo. -/
theorem getcReadsAByte : Obligations.GetcReadsAByte := by
  unfold Obligations.GetcReadsAByte
  refine ⟨fun w opcode vector => decode_of_service_vector opcode vector rfl, fun s b rest hi => ?_, fun s hi => ?_⟩
  · simpa only [WaitPoint.echo, List.append_nil] using exec_readByteThen_cons (exec_getc s) hi
  · simpa only [List.append_nil, SameConsole] using exec_readByteThen_nil (exec_getc s) hi

/-- Settles O39: IN links, writes the prompt and reads, and echoes the byte. -/
theorem inPromptsReadsAndEchoes : Obligations.InPromptsReadsAndEchoes := by
  unfold Obligations.InPromptsReadsAndEchoes
  exact ⟨fun w opcode vector => decode_of_service_vector opcode vector rfl,
    fun s b rest hi => exec_readByteThen_cons (p := .inChar) (es := Config.inPrompt.map .byte) rfl hi,
    fun s hi => exec_readByteThen_nil (p := .inChar) (es := Config.inPrompt.map .byte) rfl hi⟩

/-! ### OUT and HALT -/

theorem flush_writeBytes_con (bs : List Byte) (s : State) :
    (flush (writeBytes bs s)).con = { s.con with output := s.con.output ++ bs.map .byte ++ [.flush] } := rfl

/-- Settles O36: the byte is taken from R0 after R7 is written, which leaves R0 alone. -/
theorem outWritesLowByte : Obligations.OutWritesLowByte := by
  unfold Obligations.OutWritesLowByte
  refine ⟨fun w opcode vector => decode_of_service_vector opcode vector rfl, fun s => ?_⟩
  obtain ⟨link, regs⟩ := link_of_regs (s := s) (t := serviceOut (linkReturn s)) rfl
  refine ⟨_, rfl, ?_, link, regs, rfl, rfl, ⟨rfl, rfl, rfl⟩, fun _ => rfl⟩
  rw [serviceOut, flush_writeBytes_con, List.append_assoc, linkReturn_reg_ne s (by decide)]
  rfl

/-- Settles O41: HALT writes R7, the console and the run state only. -/
theorem haltStopsTheRun : Obligations.HaltStopsTheRun := by
  unfold Obligations.HaltStopsTheRun
  refine ⟨fun w opcode vector => decode_of_service_vector opcode vector rfl, fun s => ?_⟩
  obtain ⟨link, regs⟩ := link_of_regs (s := s) (t := serviceHalt (linkReturn s)) rfl
  exact ⟨_, rfl, rfl, rfl, link, regs, rfl, rfl, rfl, rfl, fun _ => rfl⟩

/-! ### The general row -/

/-- The word of the general TRAP row, field by field (30_encoding.md R64). -/
theorem encode_trap (ign : BitVec 4) (v : BitVec 8) : encode (.trap ign v) = 0xF#4 ++ ign ++ v :=
  (BitVec.append_assoc (x₁ := 0xF#4) (x₂ := ign) (x₃ := v)).symm

/-- The general row with a vector outside 0x20..0x25. -/
theorem exec_trap_unknown (ign : BitVec 4) {v : BitVec 8} (hv : v.toNat < 0x20 ∨ 0x25 < v.toNat) (s : State) :
    exec (.trap ign v) s = .next (unknownTrap (0xF#4 ++ ign ++ v) (linkReturn s)) := by
  rw [← encode_trap]
  rcases execTrap_cases ign v s with ⟨rfl, _⟩ | ⟨rfl, _⟩ | ⟨rfl, _⟩ | ⟨rfl, _⟩ | ⟨rfl, _⟩ | ⟨rfl, _⟩ | ⟨_, e⟩
  on_goal 7 => exact e
  all_goals exact absurd hv (by decide)

/-- Settles O42: the vector is the general row's, and the parameter selects between the fault and nothing. -/
theorem unknownTrapVector : Obligations.UnknownTrapVector := by
  unfold Obligations.UnknownTrapVector
  refine ⟨fun w opcode hv => (decode_of_trap_opcode opcode).trans (decodeTrap_unknown hv), fun ign v s hv => ?_⟩
  refine ⟨_, exec_trap_unknown ign hv s, ?_⟩
  obtain ⟨link, regs⟩ := link_of_regs (s := s) (t := linkReturn s) rfl
  rcases unknownTrap_cases (0xF#4 ++ ign ++ v) (linkReturn s) with ⟨faults, e⟩ | ⟨passes, e⟩ <;> rw [e]
  · rw [if_pos faults]
    exact ⟨link, regs, rfl, rfl, rfl, fun _ => rfl, rfl, rfl, rfl⟩
  · rw [if_neg (Bool.eq_false_iff.mp passes)]
    exact ⟨link, regs, rfl, rfl, rfl, fun _ => rfl, rfl, rfl, rfl⟩

/-- Settles O43: the general row's arm for a service vector is that of the vector's own row, with bits 11:8 unused. -/
theorem trapRunsTheSelectedRoutine : Obligations.TrapRunsTheSelectedRoutine := by
  unfold Obligations.TrapRunsTheSelectedRoutine
  exact fun _ _ => ⟨rfl, rfl, rfl, rfl, rfl, rfl⟩

/-! ### The loop of PUTS and PUTSP -/

/-- A walk that ends is the loop run to its end. -/
theorem prints_of_stringWalk {chars : Word → List Byte} {n : Nat} {a : Word} {s t : State}
    (h : stringWalk chars n a s = .ended t) : Prints chars a s t := by
  induction n generalizing a s with
  | zero => cases h
  | succ n ih =>
    rw [stringWalk_succ] at h
    split at h
    case isTrue zero => cases h; exact .stop _ _ zero
    case isFalse nonzero => exact .go a s t nonzero (ih h)

/-- A walk that goes on has made all its rounds of the loop. -/
theorem passes_of_stringWalk {chars : Word → List Byte} {n : Nat} {a : Word} {s t : State}
    (h : stringWalk chars n a s = .goesOn t) : Passes chars n a s t := by
  induction n generalizing a s with
  | zero => cases h; exact .done _ _
  | succ n ih =>
    rw [stringWalk_succ] at h
    split at h
    case isTrue => cases h
    case isFalse nonzero => exact .read n a s t nonzero (ih h)

theorem putString_loopOutcome (r : StringRoutine) (s : State) : LoopOutcome (stringChars r) r s (putString r s) := by
  rcases putString_cases r s with ⟨u, h, e⟩ | ⟨u, h, e⟩ <;> rw [e]
  · exact .inl ⟨u, prints_of_stringWalk h, rfl, fun _ => rfl, rfl⟩
  · exact .inr ⟨u, passes_of_stringWalk h, rfl, fun _ => rfl, rfl⟩

/-- What a string routine leaves unchanged. -/
theorem putString_frame (r : StringRoutine) (s : State) :
    (putString r s).regs = s.regs ∧ (putString r s).cond = s.cond ∧ (putString r s).pc = s.pc ∧
      (putString r s).run = s.run ∧ (putString r s).fault = s.fault ∧
      SameMemoryBut [0xFE00, 0xFE02] s (putString r s) := by
  obtain ⟨t, ports, e | e⟩ := putString_ports r s <;> rw [e] <;>
    exact ⟨ports.regs, ports.cond, ports.pc, ports.run, ports.fault, ports.onlyPolls.outside⟩

/-- The TRAP of a string routine runs the loop in the state with R7 written. -/
theorem exec_putString {i : Instr} {r : StringRoutine} {s : State} (h : exec i s = .next (putString r (linkReturn s))) :
    ∃ t, exec i s = .next t ∧ LoopOutcome (stringChars r) r (linkReturn s) t ∧
      t.reg .r7 = s.pc ∧ SameRegsBut [.r7] s t ∧ t.cond = s.cond ∧ t.pc = s.pc ∧ t.run = s.run ∧ t.fault = s.fault ∧
      SameMemoryBut [0xFE00, 0xFE02] s t := by
  obtain ⟨sameRegs, frame⟩ := putString_frame r (linkReturn s)
  obtain ⟨link, regs⟩ := link_of_regs sameRegs
  exact ⟨_, h, putString_loopOutcome r _, link, regs, frame⟩

/-- The step of a core inside a string routine runs the loop again. -/
theorem step_walking {r : StringRoutine} {s : State} (hr : s.run = .running) (hp : s.pending = some (.walking r)) :
    ∃ t, step s = .next t ∧ LoopOutcome (stringChars r) r s t ∧
      SameRegsBut [] s t ∧ t.cond = s.cond ∧ t.pc = s.pc ∧ t.run = s.run ∧ t.fault = s.fault ∧
      SameMemoryBut [0xFE00, 0xFE02] s t := by
  obtain ⟨sameRegs, frame⟩ := putString_frame r s
  exact ⟨_, step_inside hr hp, putString_loopOutcome r s, fun q _ => congrArg (fun f => Regs.get f q) sameRegs, frame⟩

/-- Settles O37: a walk that ends is the loop run to its end, and one that goes on has made a round for each address. -/
theorem putsRunsItsLoop : Obligations.PutsRunsItsLoop := by
  unfold Obligations.PutsRunsItsLoop
  exact ⟨fun w opcode vector => decode_of_service_vector opcode vector rfl,
    fun s => exec_putString (r := .puts) rfl, fun s hr hp => step_walking hr hp⟩

/-- The characters of PUTSP, the low byte first in any case. -/
theorem stringChars_putsp : stringChars .putsp = fun c : Word =>
    c.extractLsb' 0 8 :: if c.extractLsb' 8 8 = 0 then [] else [c.extractLsb' 8 8] :=
  funext fun c => (apply_ite (lowByte c :: ·) (highByte c = 0) [] [highByte c]).symm

/-- Settles O40, as O37, with PUTSP's characters. -/
theorem putspRunsItsLoop : Obligations.PutspRunsItsLoop := by
  unfold Obligations.PutspRunsItsLoop
  rw [← stringChars_putsp]
  exact ⟨fun w opcode vector => decode_of_service_vector opcode vector rfl,
    fun s => exec_putString (r := .putsp) rfl, fun s hr hp => step_walking hr hp⟩

/-! ### A walk over plain cells -/

/-- The cells from `a` up hold the words `cs`, none of them zero, and KBSR is not among them. -/
def PlainWords (s : State) (a : Word) (cs : List Word) : Prop :=
  ∀ i (h : i < cs.length), s.cell (a + BitVec.ofNat 16 i) = cs[i] ∧ cs[i] ≠ 0 ∧ a + BitVec.ofNat 16 i ≠ Config.kbsrAddr

theorem add_ofNat_succ (a : Word) (i : Nat) : a + BitVec.ofNat 16 (i + 1) = a + 1 + BitVec.ofNat 16 i := by
  rw [BitVec.add_assoc, Nat.add_comm, BitVec.ofNat_add]; rfl

theorem plainWords_cons {s : State} {a c : Word} {cs : List Word} :
    PlainWords s a (c :: cs) ↔ (s.cell a = c ∧ c ≠ 0 ∧ a ≠ Config.kbsrAddr) ∧ PlainWords s (a + 1) cs := by
  unfold PlainWords
  constructor
  · intro h
    have first := h 0 (Nat.zero_lt_succ _)
    rw [BitVec.add_zero] at first
    refine ⟨first, fun i hi => ?_⟩
    rw [← add_ofNat_succ]
    exact h (i + 1) (Nat.succ_lt_succ hi)
  · rintro ⟨first, rest⟩ i hi
    cases i with
    | zero => rw [BitVec.add_zero]; exact first
    | succ i => rw [add_ofNat_succ]; exact rest i (Nat.lt_of_succ_lt_succ hi)

/-- The walk over such cells writes their characters, and does nothing else. -/
theorem stringWalk_plainWords {s : State} {a : Word} {cs : List Word} (h : PlainWords s a cs) (chars : Word → List Byte) :
    stringWalk chars cs.length a s = .goesOn (writeBytes (cs.flatMap chars) s) := by
  induction cs generalizing a s with
  | nil => exact congrArg Walk.goesOn (State.emit_nil s).symm
  | cons c cs ih =>
    obtain ⟨⟨word, nonzero, plain⟩, rest⟩ := plainWords_cons.mp h
    have later : PlainWords (writeBytes (chars c) s) (a + 1) cs := rest
    rw [List.length_cons, stringWalk_succ, memRead_plain plain, word, if_neg nonzero, ih later]
    simp [writeBytes, State.emit]

/-- Such words with a zero word after them are fewer than the 65,536 cells: the addresses would wrap, and the zero word
would lie in the cell of one of them. -/
theorem PlainWords.length_lt {s : State} {a : Word} {cs : List Word} (h : PlainWords s a cs)
    (zero : s.cell (a + BitVec.ofNat 16 cs.length) = 0) : cs.length < passReads := by
  by_contra long
  rw [passReads, not_lt] at long
  have again : BitVec.ofNat 16 (cs.length % 2 ^ 16) = BitVec.ofNat 16 cs.length :=
    BitVec.eq_of_toNat_eq (by rw [BitVec.toNat_ofNat, BitVec.toNat_ofNat, Nat.mod_mod])
  obtain ⟨word, nonzero, -⟩ := h (cs.length % 2 ^ 16) (by omega)
  rw [again, zero] at word
  exact nonzero word.symm

/-- A string in plain cells is walked to its end in one pass. -/
theorem putString_plainWords {s : State} {a : Word} {cs : List Word} (r : StringRoutine) (ha : s.reg .r0 = a)
    (h : PlainWords s a cs) (zero : s.cell (a + BitVec.ofNat 16 cs.length) = 0)
    (plain : a + BitVec.ofNat 16 cs.length ≠ Config.kbsrAddr) :
    putString r s = flush { writeBytes (cs.flatMap (stringChars r)) s with pending := none } := by
  have ends : stringWalk (stringChars r) passReads a s = .ended (writeBytes (cs.flatMap (stringChars r)) s) := by
    refine stringWalk_more (n := cs.length + 1) ?_ _ (h.length_lt zero)
    rw [stringWalk_add (stringWalk_plainWords h _), stringWalk_succ, memRead_plain plain]
    exact if_pos zero
  unfold putString; rw [ha, ends]

/-- Settles O38: the string lies in plain cells also in the state with R7 written, and PUTS writes one byte for each of its
words. -/
theorem putsWritesTheString : Obligations.PutsWritesTheString := by
  unfold Obligations.PutsWritesTheString
  intro s cs words zero plain
  have string : PlainWords (linkReturn s) (s.reg .r0) cs := words
  have written := putString_plainWords .puts (linkReturn_reg_ne s (by decide)) string zero plain
  have bytes : (cs.flatMap (stringChars .puts)).map OutEvent.byte = cs.map fun c => .byte (c.extractLsb' 0 8) := by
    rw [List.map_flatMap]
    exact List.map_eq_flatMap.symm
  obtain ⟨link, regs⟩ := link_of_regs (s := s)
    (t := flush { writeBytes (cs.flatMap (stringChars .puts)) (linkReturn s) with pending := none }) rfl
  refine ⟨_, congrArg Host.Outcome.next written, ?_, link, regs, rfl, rfl, rfl, rfl, rfl, fun _ => rfl⟩
  rw [← bytes]
  rfl

/-! ### A walk that meets no zero word -/

/-- No cell but KBSR is 0x0000. -/
def NoZeroCell (s : State) : Prop := ∀ a, a ≠ Config.kbsrAddr → s.cell a ≠ 0

/-- On the way from `a` up to `b` the walk does not come by `b`. -/
theorem add_ofNat_ne {a b : Word} {i : Nat} (h : i < (b - a).toNat) : a + BitVec.ofNat 16 i ≠ b := by
  rintro rfl
  rw [add_sub_cancel_left, BitVec.toNat_ofNat] at h
  exact absurd h (Nat.mod_le i _).not_gt

/-- Up to KBSR the walk writes and does nothing else. -/
theorem stringWalk_up_to_kbsr {s : State} (nonzero : NoZeroCell s) (chars : Word → List Byte) {n : Nat} {a : Word}
    (h : n ≤ (Config.kbsrAddr - a).toNat) : ∃ bs, stringWalk chars n a s = .goesOn (writeBytes bs s) := by
  have words : PlainWords s a ((List.range n).map fun i => s.cell (a + BitVec.ofNat 16 i)) := by
    intro i hi
    have short : i < n := by simpa using hi
    have plain : a + BitVec.ofNat 16 i ≠ Config.kbsrAddr := add_ofNat_ne (short.trans_le h)
    simpa [plain] using nonzero _ plain
  have walk := stringWalk_plainWords words chars
  rw [List.length_map, List.length_range] at walk
  exact ⟨_, walk⟩

/-- A ready poll that brings a byte other than 0x00 leaves no zero cell. -/
theorem noZeroCell_pollKeyboard {s : State} (h : NoEndInSight s) : NoZeroCell (pollKeyboard s) := by
  obtain ⟨nonzero, ready, byte⟩ := h
  intro a ha
  by_cases data : a = Config.kbdrAddr
  · subst data
    obtain ⟨-, number, -⟩ := pollKeyboard_of_ready ready
    intro zero
    rw [zero] at number
    exact byte (BitVec.eq_of_toNat_eq number.symm)
  · rw [pollKeyboard_cell_ne s ha data]
    exact nonzero a ha

/-- From KBSR on the walk polls once, and meets no zero word before it is back there. -/
theorem stringWalk_from_kbsr {s : State} (h : NoEndInSight s) (chars : Word → List Byte) {n : Nat} (hn : n ≤ 65535) :
    ∃ t, stringWalk chars (n + 1) Config.kbsrAddr s = .goesOn t ∧ t.con.polls = s.con.polls + 1 ∧ NoZeroCell t := by
  have polled : NoZeroCell (pollKeyboard s) := noZeroCell_pollKeyboard h
  obtain ⟨-, ready, -⟩ := h
  obtain ⟨status, -, -⟩ := pollKeyboard_of_ready ready
  have nonzero : (pollKeyboard s).cell Config.kbsrAddr ≠ 0 := status.trans_ne (by decide)
  have room : (Config.kbsrAddr - (Config.kbsrAddr + 1)).toNat = 65535 := by decide
  rw [stringWalk_succ, memRead_kbsr, if_neg nonzero]
  obtain ⟨bs, walk⟩ := stringWalk_up_to_kbsr (s := writeBytes _ (pollKeyboard s)) polled chars (hn.trans room.ge)
  exact ⟨_, walk, pollKeyboard_polls s, polled⟩

/-- A pass in that case meets no zero word: it writes up to KBSR, and from there polls and goes on. -/
theorem stringWalk_no_end {s : State} (h : NoEndInSight s) (chars : Word → List Byte) (a : Word) :
    ∃ t, stringWalk chars passReads a s = .goesOn t ∧ t.con.polls = s.con.polls + 1 ∧ NoZeroCell t := by
  have ⟨nonzero, _, _⟩ := h
  obtain ⟨bs, toKbsr⟩ := stringWalk_up_to_kbsr nonzero chars (le_refl (Config.kbsrAddr - a).toNat)
  have atKbsr : NoEndInSight (writeBytes bs s) := h
  have kbsr : a + BitVec.ofNat 16 (Config.kbsrAddr - a).toNat = Config.kbsrAddr := by
    rw [BitVec.ofNat_toNat, BitVec.setWidth_eq, add_sub_cancel]
  have reads : passReads = (Config.kbsrAddr - a).toNat + (65535 - (Config.kbsrAddr - a).toNat + 1) := by
    have inside := (Config.kbsrAddr - a).isLt
    rw [passReads]
    omega
  rw [reads, stringWalk_add toKbsr, kbsr]
  exact stringWalk_from_kbsr atKbsr chars (Nat.sub_le _ _)

theorem putString_no_end {s : State} (h : NoEndInSight s) (r : StringRoutine) :
    (putString r s).pending = some (.walking r) ∧ (putString r s).con.polls = s.con.polls + 1 ∧
      NoZeroCell (putString r s) := by
  obtain ⟨t, walk, polls, nonzero⟩ := stringWalk_no_end h (stringChars r) (s.reg .r0)
  rw [putString, walk]
  exact ⟨rfl, polls, nonzero⟩

/-- Settles O60: R7 is written before the walk and changes nothing it depends on. -/
theorem walkWithoutZeroDoesNotEnd : Obligations.WalkWithoutZeroDoesNotEnd := by
  unfold Obligations.WalkWithoutZeroDoesNotEnd
  refine ⟨fun s h => ?_, fun s r hr hp h => ?_⟩
  · have linked : NoEndInSight (linkReturn s) := h
    exact ⟨⟨_, rfl, putString_no_end linked .puts⟩, ⟨_, rfl, putString_no_end linked .putsp⟩⟩
  · obtain ⟨-, -, -, run, -⟩ := putString_frame r s
    exact ⟨_, step_inside hr hp, run.trans hr, putString_no_end h r⟩

end Sys2Proof.Machine

/-! ## RTI and RES (45_unimplemented.md R140, R141) -/

namespace Sys2Proof

/-- A word of opcode 0x8 is an RTI. -/
theorem decode_of_rti_opcode {w : Word} (h : w.extractLsb' 12 4 = 0x8) : decode w = .rti (w.extractLsb' 0 12) := by
  unfold decode; rw [h]; rfl

/-- A word of opcode 0xD is a RES. -/
theorem decode_of_res_opcode {w : Word} (h : w.extractLsb' 12 4 = 0xD) : decode w = .res (w.extractLsb' 0 12) := by
  unfold decode; rw [h]; rfl

end Sys2Proof

namespace Sys2Proof.Machine

/-- An instruction that answers by raising the decode fault changes the run state and the fault record alone; the record
holds the address before the pc. -/
theorem exec_raiseDecodeFault {i : Instr} {s : State} {k : FaultKind} {w : Word}
    (h : exec i s = .next (raiseDecodeFault k w s)) :
    ∃ t, exec i s = .next t ∧ t.run = .faulted ∧ t.fault = some ⟨k, s.pc - 1, w⟩ ∧
      t.pc = s.pc ∧ t.cond = s.cond ∧ SameRegsBut [] s t ∧ t.pending = s.pending ∧ SameMemory s t ∧ SameConsole s t :=
  ⟨_, h, raiseDecodeFault_run s k w, raiseDecodeFault_fault s k w, raiseDecodeFault_pc s k w,
    raiseDecodeFault_cond s k w, fun r _ => raiseDecodeFault_reg s k w r, raiseDecodeFault_pending s k w,
    fun a => congrArg (Memory.byteAt · a) (raiseDecodeFault_mem s k w), raiseDecodeFault_con s k w⟩

/-- Settles O44: the opcode alone selects the row, and RTI raises the fault with its own word, ignored bits included. -/
theorem rtiFaults : Obligations.RtiFaults := by
  unfold Obligations.RtiFaults
  exact ⟨fun w opcode => decode_of_rti_opcode opcode, fun _ _ => exec_raiseDecodeFault rfl⟩

/-- Settles O45: the opcode alone selects the row, and RES raises the fault with its own word, ignored bits included. -/
theorem resFaults : Obligations.ResFaults := by
  unfold Obligations.ResFaults
  exact ⟨fun w opcode => decode_of_res_opcode opcode, fun _ _ => exec_raiseDecodeFault rfl⟩

end Sys2Proof.Machine

/-! ## A fetch from KBSR (60_exceptions.md R155) -/

namespace Sys2Proof.Machine

/-- A running core that is inside no routine, at KBSR, polls and runs the status the poll left. -/
theorem step_at_kbsr {s : State} (hr : s.run = .running) (hp : s.pending = none) (hpc : s.pc = Config.kbsrAddr) :
    step s = exec (decode ((pollKeyboard s).cell Config.kbsrAddr)) ((pollKeyboard s).setPc (Config.kbsrAddr + 1)) := by
  rw [stepRunsTheDecodedInstruction s hr hp, hpc, memRead_kbsr]

/-- `KBSR_READY` has the opcode of RTI. -/
theorem decode_kbsrReady : decode Config.kbsrReady = .rti 0 := by decide

/-- The word 0 is a BR with an empty mask. -/
theorem decode_zero : decode 0 = .br false false false 0 := by decide

/-- A BR with an empty mask does nothing. -/
theorem exec_br_empty_mask (off : BitVec 9) (s : State) : exec (.br false false false off) s = .next s := by
  have notTaken : ¬ branchTaken false false false s.cond = true := by simp [branchTaken_iff]
  rw [exec_br, if_neg notTaken]
  rfl

/-- Settles O49: what the poll leaves in KBSR is RTI or an empty BR, run in the state after the poll. -/
theorem fetchFromKbsr : Obligations.FetchFromKbsr := by
  unfold Obligations.FetchFromKbsr
  refine ⟨fun s hr hp hpc ready => ?_, fun s hr hp hpc idle => ?_⟩
  · obtain ⟨status, data, input⟩ := pollKeyboard_of_ready ready
    have faults : step s =
        .next (raiseDecodeFault .rti Config.kbsrReady ((pollKeyboard s).setPc (Config.kbsrAddr + 1))) := by
      rw [step_at_kbsr hr hp hpc, status, decode_kbsrReady]
      rfl
    have record : (raiseDecodeFault .rti Config.kbsrReady ((pollKeyboard s).setPc (Config.kbsrAddr + 1))).fault =
        some ⟨.rti, 0xFE00, 0x8000⟩ := by
      rw [raiseDecodeFault_fault, State.setPc_pc, BitVec.add_sub_cancel]
      rfl
    exact ⟨_, faults, rfl, record, rfl, status, data, input⟩
  · obtain ⟨status, -, input⟩ := pollKeyboard_of_idle idle
    have passes : step s = .next ((pollKeyboard s).setPc (Config.kbsrAddr + 1)) := by
      rw [step_at_kbsr hr hp hpc, status, decode_zero, exec_br_empty_mask]
    exact ⟨_, passes, (pollKeyboard_run s).trans hr, pollKeyboard_fault s, rfl, status, fun r _ => pollKeyboard_reg s r,
      pollKeyboard_cond s, input⟩

end Sys2Proof.Machine

/-! ## What faults and what halts (60_exceptions.md R150) -/

namespace Sys2Proof.Machine

/-- What works at the ports alone neither halts nor faults. -/
theorem PortsOnly.keepsRun {s t : State} (h : PortsOnly s t) : t.run = s.run ∧ t.fault = s.fault := ⟨h.run, h.fault⟩

/-- `ReadByte()` and what follows it neither halts nor faults, whether a byte is there or the core waits. -/
theorem readByteThen_keepsRun (p : WaitPoint) (s : State) :
    (readByteThen p s).run = s.run ∧ (readByteThen p s).fault = s.fault := by
  rcases readByteThen_cases p s with ⟨_, e⟩ | ⟨_, _, _, _, e⟩ <;> rw [e] <;> exact ⟨rfl, rfl⟩

theorem putString_keepsRun (r : StringRoutine) (s : State) :
    (putString r s).run = s.run ∧ (putString r s).fault = s.fault := by
  obtain ⟨-, -, -, run, fault, -⟩ := putString_frame r s
  exact ⟨run, fault⟩

/-- An unknown vector faults if the parameter says so, and otherwise neither halts nor faults (44_trap.md R127). -/
theorem unknownTrap_faults_or_keepsRun (w : Word) (s : State) :
    if Config.unknownTrapFaults = true then (unknownTrap w s).run = .faulted ∧ (unknownTrap w s).fault ≠ none
    else (unknownTrap w s).run = s.run ∧ (unknownTrap w s).fault = s.fault := by
  rcases unknownTrap_cases w s with ⟨faults, e⟩ | ⟨passes, e⟩ <;> rw [e]
  · rw [if_pos faults]
    exact ⟨rfl, nofun⟩
  · rw [if_neg (Bool.eq_false_iff.mp passes)]
    exact ⟨rfl, rfl⟩

/-- Settles O55, instruction by instruction: only RTI, RES, HALT and an unknown vector write the run state or the record;
what else an instruction does at memory and at the console keeps both. -/
theorem onlyExceptionIsTheDecodeFault : Obligations.OnlyExceptionIsTheDecodeFault := by
  unfold Obligations.OnlyExceptionIsTheDecodeFault
  intro i s t wf h
  cases i with
  | addReg | addImm | andReg | andImm | not | lea | st | str | jmp | jsr | jsrr | out => cases h; exact ⟨rfl, rfl⟩
  | br => rw [exec_br] at h; cases h; exact ⟨rfl, rfl⟩
  | ld | ldr | sti => cases h; exact ((PortsOnly.refl s).memRead _).keepsRun
  | ldi => cases h; exact (((PortsOnly.refl s).memRead _).memRead _).keepsRun
  | getc => cases h; exact readByteThen_keepsRun .getc (linkReturn s)
  | inChar => cases h; exact readByteThen_keepsRun .inChar (writeBytes Config.inPrompt (linkReturn s))
  | puts => cases h; exact putString_keepsRun .puts (linkReturn s)
  | putsp => cases h; exact putString_keepsRun .putsp (linkReturn s)
  | halt => cases h; exact ⟨rfl, rfl⟩
  | rti | res => cases h; exact ⟨rfl, nofun⟩
  | trap ign v =>
    rw [exec_trap_unknown ign (isServiceVector_eq_false_iff.mp (wf_trap_iff.mp wf))] at h
    cases h
    exact unknownTrap_faults_or_keepsRun _ (linkReturn s)

end Sys2Proof.Machine

/-! ## The run status (00_scope.md R6, 70_reset_and_hazards.md R174, R175) -/

namespace Sys2Proof.Machine

theorem State.runStatus_of_running {s : State} (h : s.run = .running) : s.runStatus = .running := by
  simp only [State.runStatus, h]

theorem State.runStatus_of_halted {s : State} (h : s.run = .halted) : s.runStatus = .halted := by
  simp only [State.runStatus, h]

theorem State.runStatus_of_faulted {s : State} (h : s.run = .faulted) : s.runStatus = .faulted s.fault := by
  simp only [State.runStatus, h]

/-- Settles O3: a non-empty list of loadable images starts and its start state runs, both by O2; the empty list is the
first branch of the reset. -/
theorem noImageIsLoadError : Obligations.NoImageIsLoadError := by
  unfold Obligations.NoImageIsLoadError
  obtain ⟨startState, starts, -⟩ := resetLoadsImagesInOrder
  refine ⟨rfl, rfl, fun images hne hlong => ?_, fun _ => State.runStatus_of_running,
    fun _ => State.runStatus_of_halted, fun _ => State.runStatus_of_faulted⟩
  obtain ⟨t, started⟩ := starts images hne hlong
  obtain ⟨-, -, -, running, -, -⟩ := startState images t started
  rw [started]
  exact State.runStatus_of_running running

end Sys2Proof.Machine
